-- ==== Sys2Proof/Word.lean ====
section
/-!
DEFINITION. The word type of the machine and the widths of the instruction fields (00_scope.md R9; 30_encoding.md R52 to R54).
-/

namespace Sys2Proof

/-- A register, a memory cell, an instruction or a pc value: XLEN = 32 bits (00_scope.md R6, R9). -/
abbrev Word := BitVec 32

/-- A 5-bit register index field (30_encoding.md R52; 10_state.md R10: every index 0 to 31 is reachable). -/
abbrev RegIdx := BitVec 5

/-- The 5-bit shift amount field (30_encoding.md R52, R62). -/
abbrev Shamt := BitVec 5

/-- The 16-bit immediate field, an unsigned pattern (30_encoding.md R53, R57). -/
abbrev Imm16 := BitVec 16

/-- The 26-bit address field of the Jump format (30_encoding.md R54). -/
abbrev Addr26 := BitVec 26

/-- An opcode or a function code: 6 bits (30_encoding.md R52). -/
abbrev Code6 := BitVec 6

/-- Source text, label names and mnemonics: a sequence of characters, compared exactly (10_state.md R26). -/
abbrev Text := List Char

end Sys2Proof
end

