-- ==== Sys2Proof/Config.lean ====
section
/-!
DEFINITION. The constants the sources fix (00_scope.md R6) and the parameters they leave open (00_scope.md R7), as plain data.
The default values of the parameters stand in Decode.lean (`Config.standard`).
-/

namespace Sys2Proof

/-- The number of words of the memory array; valid addresses are 0 to `memWords - 1` (R6, R30). -/
def memWords : Nat := 0x7FFFFFFD

/-- The word address of the first instruction and the reset value of the pc (R6, R32). -/
def textBase : Nat := 0x00400000

/-- The word address of the first static-data word and the upper bound of the text segment (R6, R32). -/
def staticDataBase : Nat := 0x10000000

/-- The word address where the dynamic region starts (R6, R32). -/
def dynamicBase : Nat := 0x10008000

/-- The sentinel word that `halt` assembles to (R6, R55). -/
def haltWord : Word := 0xFFFFFFFF

/-- The opcode of every Register-format instruction (R6). -/
def opRegister : Code6 := 0

/-- The opcode of the unconditional jump (R6, R54). -/
def opJ : Code6 := 2

/-- The opcode of call-and-link (R6, R54). -/
def opJal : Code6 := 3

/-- The opcode field of the halt sentinel (R6, R55). -/
def opHalt : Code6 := 0x3F

/-- The parameter OPC of R7: the opcode of every Immediate-format mnemonic (30_encoding.md R63). -/
structure OpcTable where
  beq : Code6
  bne : Code6
  addi : Code6
  addiu : Code6
  slti : Code6
  sltiu : Code6
  andi : Code6
  ori : Code6
  lui : Code6
  lw : Code6
  lbu : Code6
  lhu : Code6
  sb : Code6
  sh : Code6
  sw : Code6
  ll : Code6
  sc : Code6
  deriving DecidableEq, Repr

/-- The parameter FUNC of R7: the function code of every Register-format mnemonic (30_encoding.md R64). -/
structure FuncTable where
  sll : Code6
  srl : Code6
  jr : Code6
  add : Code6
  addu : Code6
  sub : Code6
  subu : Code6
  and : Code6
  or : Code6
  nor : Code6
  slt : Code6
  sltu : Code6
  deriving DecidableEq, Repr

/-- The parameters of 00_scope.md R7. They are fixed for a machine: no step changes them. -/
structure Config where
  /-- OPC (R7, R63; decision D1). -/
  opc : OpcTable
  /-- FUNC (R7, R64; decision D1). -/
  func : FuncTable
  /-- REGNAME: the 32 register names in index order (R7, R12; decision D2). -/
  regNames : Vector Text 32
  /-- RA: the index of the return-address register (R7, R12; decision D2). -/
  ra : RegIdx
  /-- DYN_END: the last address of the dynamic region (R7, R32; decision D17). No rule tests it. -/
  dynEnd : Nat
  /-- RUNTIME_FATAL: whether a reported runtime condition ends the run (R7, R245; decision D9). -/
  runtimeFatal : Bool
  /-- FUEL: the optional instruction-count ceiling (R7, R158; decision D21). -/
  fuel : Option Nat
  deriving DecidableEq, Repr

/-- The disassembly text handed to the observer with a fetched word. The spec gives no format (R71, 93 U17), so it is a FREE
VALUE: nothing constrains it, and no state depends on it (log 21). -/
opaque Config.disassemblyText : Config → Word → Text

end Sys2Proof
end

