-- ==== Sys2Proof/Syntax.lean ====
section
/-!
DEFINITION. The instruction set as data: `Instr`, one constructor per row of spec/opcode_table.json; the mnemonics
(30_encoding.md R65); and the link-time records of 10_state.md R22 to R27.
-/

namespace Sys2Proof

/-- The instructions. Register-format constructors carry rs, rt, rd, shamt and Immediate-format ones rs, rt, immediate, in the
order of the fields in the word; a field an operation ignores is kept, since the codec preserves it (30_encoding.md R68, R59). -/
inductive Instr where
  | sll (rs rt rd : RegIdx) (shamt : Shamt)
  | srl (rs rt rd : RegIdx) (shamt : Shamt)
  | jr (rs rt rd : RegIdx) (shamt : Shamt)
  | add (rs rt rd : RegIdx) (shamt : Shamt)
  | addu (rs rt rd : RegIdx) (shamt : Shamt)
  | sub (rs rt rd : RegIdx) (shamt : Shamt)
  | subu (rs rt rd : RegIdx) (shamt : Shamt)
  | and (rs rt rd : RegIdx) (shamt : Shamt)
  | or (rs rt rd : RegIdx) (shamt : Shamt)
  | nor (rs rt rd : RegIdx) (shamt : Shamt)
  | slt (rs rt rd : RegIdx) (shamt : Shamt)
  | sltu (rs rt rd : RegIdx) (shamt : Shamt)
  | beq (rs rt : RegIdx) (imm : Imm16)
  | bne (rs rt : RegIdx) (imm : Imm16)
  | addi (rs rt : RegIdx) (imm : Imm16)
  | addiu (rs rt : RegIdx) (imm : Imm16)
  | slti (rs rt : RegIdx) (imm : Imm16)
  | sltiu (rs rt : RegIdx) (imm : Imm16)
  | andi (rs rt : RegIdx) (imm : Imm16)
  | ori (rs rt : RegIdx) (imm : Imm16)
  | lui (rs rt : RegIdx) (imm : Imm16)
  | lw (rs rt : RegIdx) (imm : Imm16)
  | lbu (rs rt : RegIdx) (imm : Imm16)
  | lhu (rs rt : RegIdx) (imm : Imm16)
  | sb (rs rt : RegIdx) (imm : Imm16)
  | sh (rs rt : RegIdx) (imm : Imm16)
  | sw (rs rt : RegIdx) (imm : Imm16)
  | ll (rs rt : RegIdx) (imm : Imm16)
  | sc (rs rt : RegIdx) (imm : Imm16)
  | j (address : Addr26)
  | jal (address : Addr26)
  | halt
  deriving DecidableEq, Repr

/-- The twelve Register-format operations (30_encoding.md R64). -/
inductive RegOp where
  | sll | srl | jr | add | addu | sub | subu | and | or | nor | slt | sltu
  deriving DecidableEq, Repr

/-- The seventeen Immediate-format operations (30_encoding.md R63). -/
inductive ImmOp where
  | beq | bne | addi | addiu | slti | sltiu | andi | ori | lui | lw | lbu | lhu | sb | sh | sw | ll | sc
  deriving DecidableEq, Repr

/-- The two Jump-format operations (30_encoding.md R54). -/
inductive JumpOp where
  | j | jal
  deriving DecidableEq, Repr

/-- The 32 mnemonics (30_encoding.md R65), by format. -/
inductive Mnemonic where
  | reg (op : RegOp)
  | imm (op : ImmOp)
  | jump (op : JumpOp)
  | halt
  deriving DecidableEq, Repr

/-- The tag of an Instruction record with the tag's own fields (10_state.md R22). Fields are natural numbers, so that an
over-wide field can be written down and `encode` can reduce it (30_encoding.md R58). -/
inductive Variant where
  | register (rs rt rd shamt func : Nat)
  | immediate (rs rt imm : Nat)
  | jump (address : Nat)
  | halt
  deriving DecidableEq, Repr

/-- An Instruction record (10_state.md R22). `label` and `symbolicOperand` are link-time annotations that are not encoded. -/
structure Instruction where
  variant : Variant
  opcode : Nat
  value : Word
  label : Option Text
  symbolicOperand : Option Text
  deriving DecidableEq, Repr

/-- A static-data element: its mandatory label and its words (10_state.md R24). -/
structure StaticData where
  label : Text
  words : List Word
  deriving DecidableEq, Repr

/-- The unlinked assembly unit (10_state.md R25). -/
structure Protogram where
  instrs : List Instruction
  data : List StaticData
  deriving DecidableEq, Repr

/-- Label name to absolute address (10_state.md R26), in construction order. -/
abbrev SymbolTable := List (Text × Word)

/-- The linked binary image (10_state.md R27). -/
structure Program where
  bin : List Word
  staticData : List Word
  deriving DecidableEq, Repr

end Sys2Proof
end

