-- ==== Sys2Proof/Decode.lean ====
section
/-!
DEFINITION. The Instruction Codec (30_encoding.md): the default tables, bit-field extraction, `decode` and `encode` of
Instruction records, operation selection, the decoder from a word to `Instr` (which rejects an undefined encoding by name) and
the encoder back.
-/

namespace Sys2Proof

/-! ### The default tables -/

/-- The default of OPC: the table of 30_encoding.md R63. PRESUMED (the spec takes the numbers from general knowledge; log 4). -/
def OpcTable.standard : OpcTable where
  beq := 0x04
  bne := 0x05
  addi := 0x08
  addiu := 0x09
  slti := 0x0A
  sltiu := 0x0B
  andi := 0x0C
  ori := 0x0D
  lui := 0x0F
  lw := 0x23
  lbu := 0x24
  lhu := 0x25
  sb := 0x28
  sh := 0x29
  sw := 0x2B
  ll := 0x30
  sc := 0x38

/-- The default of FUNC: the table of 30_encoding.md R64. PRESUMED (the spec takes the numbers from general knowledge; log 4). -/
def FuncTable.standard : FuncTable where
  sll := 0x00
  srl := 0x02
  jr := 0x08
  add := 0x20
  addu := 0x21
  sub := 0x22
  subu := 0x23
  and := 0x24
  or := 0x25
  nor := 0x27
  slt := 0x2A
  sltu := 0x2B

/-- The default of REGNAME: the table of 10_state.md R12. PRESUMED (log 5). -/
def regNamesStandard : Vector Text 32 := #v[
   "$zero".toList, "$at".toList, "$v0".toList, "$v1".toList, "$a0".toList, "$a1".toList, "$a2".toList, "$a3".toList,
   "$t0".toList, "$t1".toList, "$t2".toList, "$t3".toList, "$t4".toList, "$t5".toList, "$t6".toList, "$t7".toList,
   "$s0".toList, "$s1".toList, "$s2".toList, "$s3".toList, "$s4".toList, "$s5".toList, "$s6".toList, "$s7".toList,
   "$t8".toList, "$t9".toList, "$k0".toList, "$k1".toList, "$gp".toList, "$sp".toList, "$fp".toList, "$ra".toList]

/-- The machine with every parameter of 00_scope.md R7 at its default. -/
def Config.standard : Config where
  opc := OpcTable.standard
  func := FuncTable.standard
  regNames := regNamesStandard
  ra := 31
  dynEnd := 0x7FFFFFFC
  runtimeFatal := false
  fuel := none

/-! ### Lookup tables (R65, R66) -/

/-- The code of an Immediate-format mnemonic in the table OPC (R63). -/
def OpcTable.code (t : OpcTable) : ImmOp → Code6
  | .beq => t.beq
  | .bne => t.bne
  | .addi => t.addi
  | .addiu => t.addiu
  | .slti => t.slti
  | .sltiu => t.sltiu
  | .andi => t.andi
  | .ori => t.ori
  | .lui => t.lui
  | .lw => t.lw
  | .lbu => t.lbu
  | .lhu => t.lhu
  | .sb => t.sb
  | .sh => t.sh
  | .sw => t.sw
  | .ll => t.ll
  | .sc => t.sc

/-- The code of a Register-format mnemonic in the table FUNC (R64). -/
def FuncTable.code (t : FuncTable) : RegOp → Code6
  | .sll => t.sll
  | .srl => t.srl
  | .jr => t.jr
  | .add => t.add
  | .addu => t.addu
  | .sub => t.sub
  | .subu => t.subu
  | .and => t.and
  | .or => t.or
  | .nor => t.nor
  | .slt => t.slt
  | .sltu => t.sltu

/-- The Register-format operations, in the order of R64. -/
def allRegOps : List RegOp :=
  [.sll, .srl, .jr, .add, .addu, .sub, .subu, .and, .or, .nor, .slt, .sltu]

/-- The Immediate-format operations, in the order of R63. -/
def allImmOps : List ImmOp :=
  [.beq, .bne, .addi, .addiu, .slti, .sltiu, .andi, .ori, .lui, .lw, .lbu, .lhu, .sb, .sh, .sw, .ll, .sc]

/-- `opcode_of` on mnemonics (R65): 0 for the twelve Register-format mnemonics, 2 and 3 for the jumps, 0x3F for `halt`. -/
def Mnemonic.opcode (cfg : Config) : Mnemonic → Code6
  | .reg _ => opRegister
  | .imm op => cfg.opc.code op
  | .jump .j => opJ
  | .jump .jal => opJal
  | .halt => opHalt

/-- `func_of` (R65): defined for the twelve Register-format mnemonics only. -/
def Mnemonic.func (cfg : Config) : Mnemonic → Option Code6
  | .reg op => some (cfg.func.code op)
  | .imm _ => none
  | .jump _ => none
  | .halt => none

/-- The Register-format operation whose function code is `c`, if any: the reverse map of R65, used by R67. -/
def FuncTable.opOf (t : FuncTable) (c : Nat) : Option RegOp :=
  allRegOps.find? fun m => (t.code m).toNat == c

/-- The Immediate-format operation whose opcode is `c`, if any: the reverse map of R65, used by R67. -/
def OpcTable.opOf (t : OpcTable) (c : Nat) : Option ImmOp :=
  allImmOps.find? fun m => (t.code m).toNat == c

/-- The spelling of a Register-format mnemonic (R65). -/
def RegOp.spelling : RegOp → Text
  | .sll => "sll".toList
  | .srl => "srl".toList
  | .jr => "jr".toList
  | .add => "add".toList
  | .addu => "addu".toList
  | .sub => "sub".toList
  | .subu => "subu".toList
  | .and => "and".toList
  | .or => "or".toList
  | .nor => "nor".toList
  | .slt => "slt".toList
  | .sltu => "sltu".toList

/-- The spelling of an Immediate-format mnemonic (R65). -/
def ImmOp.spelling : ImmOp → Text
  | .beq => "beq".toList
  | .bne => "bne".toList
  | .addi => "addi".toList
  | .addiu => "addiu".toList
  | .slti => "slti".toList
  | .sltiu => "sltiu".toList
  | .andi => "andi".toList
  | .ori => "ori".toList
  | .lui => "lui".toList
  | .lw => "lw".toList
  | .lbu => "lbu".toList
  | .lhu => "lhu".toList
  | .sb => "sb".toList
  | .sh => "sh".toList
  | .sw => "sw".toList
  | .ll => "ll".toList
  | .sc => "sc".toList

/-- The spelling of a mnemonic (R65): lower case, matched exactly. -/
def Mnemonic.spelling : Mnemonic → Text
  | .reg op => op.spelling
  | .imm op => op.spelling
  | .jump .j => "j".toList
  | .jump .jal => "jal".toList
  | .halt => "halt".toList

/-- The 32 mnemonics of R63 and R64. -/
def allMnemonics : List Mnemonic :=
  allRegOps.map .reg ++ allImmOps.map .imm ++ [.jump .j, .jump .jal, .halt]

/-- The mnemonic with a given spelling; `none` is the lookup failure of R65, never a defaulted value. -/
def mnemonicOf (name : Text) : Option Mnemonic :=
  allMnemonics.find? fun m => m.spelling == name

/-- `opcode_of` on names (R65): absence is distinct from the value 0. -/
def opcodeOfName (cfg : Config) (name : Text) : Option Code6 :=
  (mnemonicOf name).map (Mnemonic.opcode cfg)

/-- `func_of` on names (R65). -/
def funcOfName (cfg : Config) (name : Text) : Option Code6 :=
  (mnemonicOf name).bind (Mnemonic.func cfg)

/-- The mnemonics that have an opcode of their own: all but the twelve of the Register format, which share opcode 0. -/
def allOpcodeMnemonics : List Mnemonic := allImmOps.map .imm ++ [.jump .j, .jump .jal, .halt]

/-- The reverse map from opcode to mnemonic (R65), absent for every value that is not listed. Opcode 0 is shared by the twelve
Register-format mnemonics and names no single one, so the model answers absent there and `mnemonicOfFunc` decides (log 32). -/
def mnemonicOfOpcode (cfg : Config) (opcode : Nat) : Option Mnemonic :=
  allOpcodeMnemonics.find? fun m => (m.opcode cfg).toNat == opcode

/-- The reverse map from function code to mnemonic (R65), meaningful where the opcode is 0; absent for a value that is not
listed. -/
def mnemonicOfFunc (cfg : Config) (func : Nat) : Option Mnemonic := (cfg.func.opOf func).map .reg

/-- The 32 register indices in order. -/
def allRegs : List RegIdx := (List.finRange 32).map fun k => BitVec.ofFin k

/-- `reg_name` (R66): total on 0 to 31. -/
def regName (cfg : Config) (i : RegIdx) : Text := cfg.regNames[i.toNat]'(i.isLt)

/-- `reg_index` (R66): `none` is absence, distinct from register 0. -/
def regIndex (cfg : Config) (name : Text) : Option RegIdx :=
  allRegs.find? fun i => regName cfg i == name

/-! ### decode and encode of Instruction records (R51, R56 to R58) -/

/-- Bit-field extraction (R51): shift right by `low`, mask to `2^(high-low+1) - 1`. -/
def bits (w : Word) (high low : Nat) : Nat := (w.toNat >>> low) &&& (2 ^ (high - low + 1) - 1)

/-- The tag and its fields (R56, R57), in the order Halt, Register, Jump, Immediate (90_conflicts.md C10). -/
def decodeVariant (w : Word) : Variant :=
  if bits w 31 26 = opHalt.toNat then .halt
  else if bits w 31 26 = opRegister.toNat then
    .register (bits w 25 21) (bits w 20 16) (bits w 15 11) (bits w 10 6) (bits w 5 0)
  else if bits w 31 26 = opJ.toNat ∨ bits w 31 26 = opJal.toNat then .jump (bits w 25 0)
  else .immediate (bits w 25 21) (bits w 20 16) (bits w 15 0)

/-- `decode` (R56, R57): total, and never fails; the link-time annotations are absent. -/
def decode (w : Word) : Instruction where
  variant := decodeVariant w
  opcode := bits w 31 26
  value := w
  label := none
  symbolicOperand := none

/-- The word of a tag and an opcode (R58), every field reduced to its width (decision D13, log 23). The fields do not overlap,
so the sum is the `|` of R58. -/
def encodeVariant (opcode : Nat) : Variant → Word
  | .register rs rt rd shamt func =>
    BitVec.ofNat 32 (opcode % 64 * 2 ^ 26 + rs % 32 * 2 ^ 21 + rt % 32 * 2 ^ 16 + rd % 32 * 2 ^ 11 + shamt % 32 * 2 ^ 6
      + func % 64)
  | .immediate rs rt imm =>
    BitVec.ofNat 32 (opcode % 64 * 2 ^ 26 + rs % 32 * 2 ^ 21 + rt % 32 * 2 ^ 16 + imm % 2 ^ 16)
  | .jump address => BitVec.ofNat 32 (opcode % 64 * 2 ^ 26 + address % 2 ^ 26)
  | .halt => haltWord

/-- `encode` of an Instruction record (R58); it ignores the annotations. -/
def encode (d : Instruction) : Word := encodeVariant d.opcode d.variant

/-- The record with `value` derived anew from its fields (10_state.md R23; 42_linker.md R135). -/
def Instruction.rederive (d : Instruction) : Instruction := { d with value := encode d }

/-- A record of a mnemonic from its fields, without annotations, `value` in step with the fields (40_assembler_syntax.md R94). -/
def Instruction.make (cfg : Config) (m : Mnemonic) (v : Variant) : Instruction :=
  Instruction.rederive { variant := v, opcode := (m.opcode cfg).toNat, value := 0, label := none, symbolicOperand := none }

/-! ### Operation selection and the decoder to Instr (R67) -/

/-- The operation of the Jump tag (R67): `j` for opcode 2, `jal` for 3, absent for any other opcode, which no decoded record of
that tag has (R56). -/
def JumpOp.ofOpcode (opcode : Nat) : Option JumpOp :=
  if opcode = opJ.toNat then some .j else if opcode = opJal.toNat then some .jal else none

/-- `op_of` (R67): the operation of a record, `none` for Undefined. Only the opcode and, for the Register tag, `func` take part. -/
def opOf (cfg : Config) (d : Instruction) : Option Mnemonic :=
  match d.variant with
  | .halt => some .halt
  | .register _ _ _ _ func => (cfg.func.opOf func).map .reg
  | .jump _ => (JumpOp.ofOpcode d.opcode).map .jump
  | .immediate _ _ _ => (cfg.opc.opOf d.opcode).map .imm

/-- The Register-format instruction of an operation and its fields. -/
def Instr.ofRegister (rs rt rd : RegIdx) (shamt : Shamt) : RegOp → Instr
  | .sll => .sll rs rt rd shamt
  | .srl => .srl rs rt rd shamt
  | .jr => .jr rs rt rd shamt
  | .add => .add rs rt rd shamt
  | .addu => .addu rs rt rd shamt
  | .sub => .sub rs rt rd shamt
  | .subu => .subu rs rt rd shamt
  | .and => .and rs rt rd shamt
  | .or => .or rs rt rd shamt
  | .nor => .nor rs rt rd shamt
  | .slt => .slt rs rt rd shamt
  | .sltu => .sltu rs rt rd shamt

/-- The Immediate-format instruction of an operation and its fields. -/
def Instr.ofImmediate (rs rt : RegIdx) (imm : Imm16) : ImmOp → Instr
  | .beq => .beq rs rt imm
  | .bne => .bne rs rt imm
  | .addi => .addi rs rt imm
  | .addiu => .addiu rs rt imm
  | .slti => .slti rs rt imm
  | .sltiu => .sltiu rs rt imm
  | .andi => .andi rs rt imm
  | .ori => .ori rs rt imm
  | .lui => .lui rs rt imm
  | .lw => .lw rs rt imm
  | .lbu => .lbu rs rt imm
  | .lhu => .lhu rs rt imm
  | .sb => .sb rs rt imm
  | .sh => .sh rs rt imm
  | .sw => .sw rs rt imm
  | .ll => .ll rs rt imm
  | .sc => .sc rs rt imm

/-- The Jump-format instruction of an operation and its field. -/
def Instr.ofJump (address : Addr26) : JumpOp → Instr
  | .j => .j address
  | .jal => .jal address

/-- Why the decoder rejects a word. -/
inductive DecodeError where
  /-- `op_of` is Undefined (R67, R69): no mnemonic has the opcode, or, with opcode 0, the function code. -/
  | undefinedEncoding (word : Word)
  deriving DecidableEq, Repr

/-- The instruction of a record (R67): the operation that the opcode or, for the Register tag, the function code selects, with
the fields of the tag. -/
def instrOf (cfg : Config) (d : Instruction) : Except DecodeError Instr :=
  match d.variant with
  | .halt => .ok .halt
  | .register rs rt rd shamt func =>
    match cfg.func.opOf func with
    | some op =>
      .ok (Instr.ofRegister (BitVec.ofNat 5 rs) (BitVec.ofNat 5 rt) (BitVec.ofNat 5 rd) (BitVec.ofNat 5 shamt) op)
    | none => .error (.undefinedEncoding d.value)
  | .jump address =>
    match JumpOp.ofOpcode d.opcode with
    | some op => .ok (Instr.ofJump (BitVec.ofNat 26 address) op)
    | none => .error (.undefinedEncoding d.value)
  | .immediate rs rt imm =>
    match cfg.opc.opOf d.opcode with
    | some op => .ok (Instr.ofImmediate (BitVec.ofNat 5 rs) (BitVec.ofNat 5 rt) (BitVec.ofNat 16 imm) op)
    | none => .error (.undefinedEncoding d.value)

/-- The decoder (R56, R57, R67): total on any word, rejecting an undefined encoding by name. -/
def decodeWord (cfg : Config) (w : Word) : Except DecodeError Instr := instrOf cfg (decode w)

/-- The decoder on a word numbered as spec/opcode_table.json numbers it, with the default tables. Every instruction is one
32-bit word (R50); bits above `nbits` are zero. -/
def decodeTableWord (nbits w : Nat) : Option Instr :=
  (decodeWord Config.standard (BitVec.ofNat 32 (w % 2 ^ nbits))).toOption

/-! ### The encoder from Instr (R58) -/

/-- The mnemonic of an instruction. -/
def Instr.mnemonic : Instr → Mnemonic
  | .sll _ _ _ _ => .reg .sll
  | .srl _ _ _ _ => .reg .srl
  | .jr _ _ _ _ => .reg .jr
  | .add _ _ _ _ => .reg .add
  | .addu _ _ _ _ => .reg .addu
  | .sub _ _ _ _ => .reg .sub
  | .subu _ _ _ _ => .reg .subu
  | .and _ _ _ _ => .reg .and
  | .or _ _ _ _ => .reg .or
  | .nor _ _ _ _ => .reg .nor
  | .slt _ _ _ _ => .reg .slt
  | .sltu _ _ _ _ => .reg .sltu
  | .beq _ _ _ => .imm .beq
  | .bne _ _ _ => .imm .bne
  | .addi _ _ _ => .imm .addi
  | .addiu _ _ _ => .imm .addiu
  | .slti _ _ _ => .imm .slti
  | .sltiu _ _ _ => .imm .sltiu
  | .andi _ _ _ => .imm .andi
  | .ori _ _ _ => .imm .ori
  | .lui _ _ _ => .imm .lui
  | .lw _ _ _ => .imm .lw
  | .lbu _ _ _ => .imm .lbu
  | .lhu _ _ _ => .imm .lhu
  | .sb _ _ _ => .imm .sb
  | .sh _ _ _ => .imm .sh
  | .sw _ _ _ => .imm .sw
  | .ll _ _ _ => .imm .ll
  | .sc _ _ _ => .imm .sc
  | .j _ => .jump .j
  | .jal _ => .jump .jal
  | .halt => .halt

/-- The instruction with every field its operation ignores set to zero (30_encoding.md R68): shamt of the Register-format
operations other than the shifts; rt of the shifts; rt, rd, shamt of jr; rs of lui. The six unimplemented instructions record
their whole word, so none of their fields is ignored. -/
def Instr.clearIgnored : Instr → Instr
  | .sll rs _ rd shamt => .sll rs 0 rd shamt
  | .srl rs _ rd shamt => .srl rs 0 rd shamt
  | .jr rs _ _ _ => .jr rs 0 0 0
  | .add rs rt rd _ => .add rs rt rd 0
  | .addu rs rt rd _ => .addu rs rt rd 0
  | .sub rs rt rd _ => .sub rs rt rd 0
  | .subu rs rt rd _ => .subu rs rt rd 0
  | .and rs rt rd _ => .and rs rt rd 0
  | .or rs rt rd _ => .or rs rt rd 0
  | .nor rs rt rd _ => .nor rs rt rd 0
  | .slt rs rt rd _ => .slt rs rt rd 0
  | .sltu rs rt rd _ => .sltu rs rt rd 0
  | .lui _ rt imm => .lui 0 rt imm
  | .beq rs rt imm => .beq rs rt imm
  | .bne rs rt imm => .bne rs rt imm
  | .addi rs rt imm => .addi rs rt imm
  | .addiu rs rt imm => .addiu rs rt imm
  | .slti rs rt imm => .slti rs rt imm
  | .sltiu rs rt imm => .sltiu rs rt imm
  | .andi rs rt imm => .andi rs rt imm
  | .ori rs rt imm => .ori rs rt imm
  | .lw rs rt imm => .lw rs rt imm
  | .lbu rs rt imm => .lbu rs rt imm
  | .lhu rs rt imm => .lhu rs rt imm
  | .sb rs rt imm => .sb rs rt imm
  | .sh rs rt imm => .sh rs rt imm
  | .sw rs rt imm => .sw rs rt imm
  | .ll rs rt imm => .ll rs rt imm
  | .sc rs rt imm => .sc rs rt imm
  | .j address => .j address
  | .jal address => .jal address
  | .halt => .halt

/-- The tag and fields of an instruction (10_state.md R22), `func` from the table FUNC. -/
def Instr.variant (cfg : Config) : Instr → Variant
  | .sll rs rt rd shamt => .register rs.toNat rt.toNat rd.toNat shamt.toNat cfg.func.sll.toNat
  | .srl rs rt rd shamt => .register rs.toNat rt.toNat rd.toNat shamt.toNat cfg.func.srl.toNat
  | .jr rs rt rd shamt => .register rs.toNat rt.toNat rd.toNat shamt.toNat cfg.func.jr.toNat
  | .add rs rt rd shamt => .register rs.toNat rt.toNat rd.toNat shamt.toNat cfg.func.add.toNat
  | .addu rs rt rd shamt => .register rs.toNat rt.toNat rd.toNat shamt.toNat cfg.func.addu.toNat
  | .sub rs rt rd shamt => .register rs.toNat rt.toNat rd.toNat shamt.toNat cfg.func.sub.toNat
  | .subu rs rt rd shamt => .register rs.toNat rt.toNat rd.toNat shamt.toNat cfg.func.subu.toNat
  | .and rs rt rd shamt => .register rs.toNat rt.toNat rd.toNat shamt.toNat cfg.func.and.toNat
  | .or rs rt rd shamt => .register rs.toNat rt.toNat rd.toNat shamt.toNat cfg.func.or.toNat
  | .nor rs rt rd shamt => .register rs.toNat rt.toNat rd.toNat shamt.toNat cfg.func.nor.toNat
  | .slt rs rt rd shamt => .register rs.toNat rt.toNat rd.toNat shamt.toNat cfg.func.slt.toNat
  | .sltu rs rt rd shamt => .register rs.toNat rt.toNat rd.toNat shamt.toNat cfg.func.sltu.toNat
  | .beq rs rt imm => .immediate rs.toNat rt.toNat imm.toNat
  | .bne rs rt imm => .immediate rs.toNat rt.toNat imm.toNat
  | .addi rs rt imm => .immediate rs.toNat rt.toNat imm.toNat
  | .addiu rs rt imm => .immediate rs.toNat rt.toNat imm.toNat
  | .slti rs rt imm => .immediate rs.toNat rt.toNat imm.toNat
  | .sltiu rs rt imm => .immediate rs.toNat rt.toNat imm.toNat
  | .andi rs rt imm => .immediate rs.toNat rt.toNat imm.toNat
  | .ori rs rt imm => .immediate rs.toNat rt.toNat imm.toNat
  | .lui rs rt imm => .immediate rs.toNat rt.toNat imm.toNat
  | .lw rs rt imm => .immediate rs.toNat rt.toNat imm.toNat
  | .lbu rs rt imm => .immediate rs.toNat rt.toNat imm.toNat
  | .lhu rs rt imm => .immediate rs.toNat rt.toNat imm.toNat
  | .sb rs rt imm => .immediate rs.toNat rt.toNat imm.toNat
  | .sh rs rt imm => .immediate rs.toNat rt.toNat imm.toNat
  | .sw rs rt imm => .immediate rs.toNat rt.toNat imm.toNat
  | .ll rs rt imm => .immediate rs.toNat rt.toNat imm.toNat
  | .sc rs rt imm => .immediate rs.toNat rt.toNat imm.toNat
  | .j address => .jump address.toNat
  | .jal address => .jump address.toNat
  | .halt => .halt

/-- The Instruction record of an instruction. -/
def Instr.toInstruction (cfg : Config) (i : Instr) : Instruction := Instruction.make cfg i.mnemonic (i.variant cfg)

/-- The word of an instruction (R58); `halt` gives the canonical word 0xFFFFFFFF (R55). -/
def encodeInstr (cfg : Config) (i : Instr) : Word := (i.toInstruction cfg).value

end Sys2Proof
end

