-- ==== Sys2Proof/Machine/State.lean ====
section
/-!
DEFINITION. The run-time state of the Execution Core as plain data (10_state.md), the reasons a run ends, the reasons a step
can stop, and the state after reset (10_state.md R28; 70_reset_and_hazards.md R270).
-/

namespace Sys2Proof.Machine

/-- One memory cell: a word address and the 32-bit word it holds. Memory is a map from word address to 32-bit value with no byte
view (20_memory.md R30, R36; log 1). -/
abbrev Cell := Nat × Word

/-- Memory as a list of cells in ONE canonical form (`Memory.wf`); an address that is not listed reads as `Memory.unlisted`. -/
abbrev Memory := List Cell

/-- What a cell that nothing has written holds: zero, the reset contents (10_state.md R28; 20_memory.md R34). -/
def Memory.unlisted : Word := 0

/-- The addresses of the cells rise strictly. -/
def Memory.rising : Memory → Bool
  | [] => true
  | [_] => true
  | a :: b :: m => a.1 < b.1 && Memory.rising (b :: m)

/-- The canonical form: addresses strictly rising, each one a cell of the array (20_memory.md R30), and no cell equal to what an
unlisted address reads as. -/
def Memory.wf (m : Memory) : Bool := Memory.rising m && m.all fun c => c.1 < memWords && c.2 ≠ Memory.unlisted

/-- A runtime condition of the soft channel with its info (60_exceptions.md R241, R242). -/
inductive Condition where
  /-- Raised by `add` and `addi`; the two operands. -/
  | arithmeticOverflow (a b : Word)
  /-- Raised by the six unimplemented instructions and every undefined encoding; the instruction word. -/
  | unsupportedInstruction (word : Word)
  deriving DecidableEq, Repr

/-- A fatal condition of the run phase (10_state.md R18; 60_exceptions.md R243, R245). -/
inductive FatalCondition where
  /-- `lw` or `sw` outside the memory array; the effective address. Always fatal. -/
  | memoryRange (ea : Word)
  /-- A reported condition when RUNTIME_FATAL is true. -/
  | reported (c : Condition)
  deriving DecidableEq, Repr

/-- Why a run halted (10_state.md R18). -/
inductive HaltReason where
  | sentinel
  | rangeExhausted
  deriving DecidableEq, Repr

/-- The run state (10_state.md R18). The pc of a fatal condition is the machine's pc, which stays at the instruction. -/
inductive RunState where
  | idle
  | running
  | halted (r : HaltReason)
  | faulted (c : FatalCondition)
  | outOfFuel
  deriving DecidableEq, Repr

/-- One entry of the diagnostic log (10_state.md R19): the pc of the reporting instruction and the condition with its info. -/
structure DiagEntry where
  pc : Word
  condition : Condition
  deriving DecidableEq, Repr

/-- Why a step stops the machine. No meaning of an instruction answers one of these: they say that no step exists. -/
inductive Fault where
  /-- Answered by `step` in the idle state: a step is "enabled only when run_state = Running" (43_run_loop.md R153), and the host
  has not issued Run. Safe: the machine does nothing then (log 3). -/
  | idle
  /-- Answered by `step` in a terminal run state: the machine is stuck, and only reset leaves it (10_state.md R18). Safe (log 3). -/
  | ended
  deriving DecidableEq, Repr

/-- Why an instruction has no meaning. -/
inductive Refusal where
  /-- An instruction the model gives no meaning. No arm of `exec` answers it: every row of the table is modelled. Safe. -/
  | notModelled (mnemonic : String)
  deriving DecidableEq, Repr

/-- The state of the machine (10_state.md R10 to R21). -/
structure State where
  /-- The 32 general registers (R10). -/
  regs : Vector Word 32
  /-- The program counter, a word address (R14). -/
  pc : Word
  /-- The memory array (20_memory.md R30). -/
  mem : Memory
  /-- The run state (R18). -/
  runState : RunState
  /-- The diagnostic log, oldest entry first (R19). -/
  diag : List DiagEntry
  /-- The fuel counter; absent when FUEL is not given (43_run_loop.md R158). -/
  fuel : Option Nat
  /-- The parameters of 00_scope.md R7. No step changes them. -/
  cfg : Config
  /-- The model's own bit: the host has used its one Load since reset (43_run_loop.md R152; log 16). -/
  loadUsed : Bool
  deriving DecidableEq, Repr

/-- The state after reset of a machine with the given parameters (10_state.md R28; 70_reset_and_hazards.md R270). -/
def State.resetWith (cfg : Config) : State where
  regs := Vector.replicate 32 0
  pc := BitVec.ofNat 32 textBase
  mem := []
  runState := .idle
  diag := []
  fuel := cfg.fuel
  cfg := cfg
  loadUsed := false

/-- The state right after reset, every parameter at its default. -/
def State.reset : State := State.resetWith Config.standard

/-- The outcome of a meaning or a step. -/
abbrev Result := Host.Outcome State Fault Refusal

end Sys2Proof.Machine
end

