-- ==== Sys2Proof/Machine/Ops.lean ====
section
/-!
DEFINITION. The named operations over memory, registers and the pc, and the two channels by which an instruction fails:
`report` and `raise` (60_exceptions.md R240). There is no trap entry and no return from a trap (R248, R250).
-/

namespace Sys2Proof.Machine

/-! ### Memory (20_memory.md) -/

/-- The word a cell holds. -/
def Memory.read : Memory → Nat → Word
  | [], _ => Memory.unlisted
  | c :: m, a => if c.1 = a then c.2 else Memory.read m a

/-- A cell is put in front, unless it holds what an unlisted address reads as. -/
def Memory.cons (a : Nat) (v : Word) (m : Memory) : Memory := if v = Memory.unlisted then m else (a, v) :: m

/-- The memory with one cell written; it keeps the canonical form. -/
def Memory.write : Memory → Nat → Word → Memory
  | [], a, v => Memory.cons a v []
  | c :: m, a, v =>
    if a < c.1 then Memory.cons a v (c :: m)
    else if a = c.1 then Memory.cons a v m
    else c :: Memory.write m a v

/-- Consecutive cells written from `a` on (43_run_loop.md R150). -/
def Memory.writeList : Memory → Nat → List Word → Memory
  | m, _, [] => m
  | m, a, v :: vs => Memory.writeList (Memory.write m a v) (a + 1) vs

/-- `MemRead(a, 1)` (20_memory.md R34): the word at address `a`, or `none` where the address names no cell. -/
def State.memRead (s : State) (a : Word) : Option Word :=
  if a.toNat < memWords then some (s.mem.read a.toNat) else none

/-- `MemWrite(a, 1, v)` (20_memory.md R35): the state with the word stored, or `none` where the address names no cell. -/
def State.memWrite (s : State) (a v : Word) : Option State :=
  if a.toNat < memWords then some { s with mem := s.mem.write a.toNat v } else none

/-! ### The address map (20_memory.md R32) -/

/-- The regions of the address map. They are not enforced on data accesses (R33). -/
inductive Region where
  | belowText
  | text
  | staticData
  | dynamic
  | beyond
  deriving DecidableEq, Repr

/-- The region of an address, `none` only for a cell above a DYN_END that is not the default (R32; log 22). -/
def regionOf (cfg : Config) (a : Word) : Option Region :=
  if a.toNat < textBase then some .belowText
  else if a.toNat < staticDataBase then some .text
  else if a.toNat < dynamicBase then some .staticData
  else if memWords ≤ a.toNat then some .beyond
  else if a.toNat ≤ cfg.dynEnd then some .dynamic
  else none

/-! ### Registers (10_state.md R10, R11) -/

/-- `x[i]`. -/
def State.readReg (s : State) (i : RegIdx) : Word := s.regs[i.toNat]'(i.isLt)

/-- `x[i] <- v`; register 0 is written like any other (R11; log 6). -/
def State.writeReg (s : State) (i : RegIdx) (v : Word) : State := { s with regs := s.regs.set i.toNat v i.isLt }

/-! ### The pc (43_run_loop.md R156) -/

/-- The pc moves on by one word. -/
def State.advance (s : State) : State := { s with pc := s.pc + 1 }

/-- `pc <- t`. -/
def State.redirect (s : State) (t : Word) : State := { s with pc := t }

/-- An instruction that writes one register and moves on. -/
def State.writeBack (s : State) (i : RegIdx) (v : Word) : State := (s.writeReg i v).advance

/-! ### The two channels (60_exceptions.md R240) -/

/-- `raise C` in the run phase (R240, R243): the run ends, the pc stays at the instruction, nothing else changes. -/
def State.raise (s : State) (c : FatalCondition) : State := { s with runState := .faulted c }

/-- An entry for the instruction at the pc is appended to the diagnostic log (R244 step 1; 10_state.md R19). -/
def State.log (s : State) (c : Condition) : State := { s with diag := s.diag ++ [{ pc := s.pc, condition := c }] }

/-- `report C` (R244): the entry is appended to the diagnostic log, no register and no memory word is written; the pc moves on,
or, with RUNTIME_FATAL, the run ends with the pc at the instruction (R245). -/
def State.report (s : State) (c : Condition) : State :=
  if s.cfg.runtimeFatal then (s.log c).raise (.reported c) else (s.log c).advance

/-! ### The ends of a run and the fuel counter (43_run_loop.md) -/

/-- The run halts: pc, registers, memory and log unchanged (R154, R155). -/
def State.halt (s : State) (r : HaltReason) : State := { s with runState := .halted r }

/-- The run ends without fuel, all other state unchanged (R158). -/
def State.endOutOfFuel (s : State) : State := { s with runState := .outOfFuel }

/-- The pc has left the text range (R155; decision D11, log 10). -/
def State.pcExhausted (s : State) : Bool := staticDataBase ≤ s.pc.toNat

/-- FUEL is given and none is left (R158). -/
def State.fuelExhausted (s : State) : Bool := s.fuel == some 0

/-- One unit of fuel is spent when an instruction has completed and the run goes on (R153, R158). -/
def State.spendFuel (s : State) : State :=
  if s.runState = .running then { s with fuel := s.fuel.map fun n => n - 1 } else s

end Sys2Proof.Machine
end

