-- ==== Sys2Proof/Machine/Operands.lean ====
section
/-!
DEFINITION. The operand forms: extension of the 16-bit immediate (30_encoding.md R60), the effective address
(45_memory_ops.md R200), and the targets of branches and jumps (46_control_transfer.md R216 to R218).
-/

namespace Sys2Proof.Machine

/-- `sext_16` (00_scope.md R9): bits 31:16 all equal to bit 15. -/
def sext16 (v : Imm16) : Word := v.signExtend 32

/-- `zext_16` (00_scope.md R9): bits 31:16 zero. -/
def zext16 (v : Imm16) : Word := v.zeroExtend 32

/-- `imm ++ 0x0000`, the operand of `lui` (44_alu.md R187). -/
def upper16 (v : Imm16) : Word := v ++ (0 : BitVec 16)

/-- The effective address (R200): base plus sign-extended offset modulo 2^32, a word address, never scaled. -/
def State.effectiveAddress (s : State) (base : RegIdx) (imm : Imm16) : Word := s.readReg base + sext16 imm

/-- The target of a taken branch (R216): relative to the instruction after the branch, in words. -/
def State.branchTarget (s : State) (imm : Imm16) : Word := s.pc + 1 + sext16 imm

/-- The target of `j` and `jal` (R218): the top 6 bits from the instruction's own pc (decision D12, log 28). -/
def State.jumpTarget (s : State) (address : Addr26) : Word := (s.pc &&& 0xFC000000) ||| address.zeroExtend 32

end Sys2Proof.Machine
end

