-- ==== Sys2Proof/Machine/Flags.lean ====
section
/-!
DEFINITION. The machine has no flags (10_state.md R16). What stands in their place: the overflow predicate (44_alu.md R189) and
the two comparisons, whose result is the word 1 or 0 (44_alu.md R179 to R182).
-/

namespace Sys2Proof.Machine

/-- `add_overflows(a, b)` (R189): the operands share a sign and the result's sign differs from both. -/
def addOverflows (a b : Word) : Bool := a.msb == b.msb && (a + b).msb != a.msb

/-- The signed comparison as a word (R179): exact, not computed from a wrapping subtraction. -/
def setLessSigned (a b : Word) : Word := if a.toInt < b.toInt then 1 else 0

/-- The unsigned comparison as a word (R181). -/
def setLessUnsigned (a b : Word) : Word := if a.toNat < b.toNat then 1 else 0

/-- A checked addition into a register (R170, R172): on overflow the condition is reported and the register keeps its value
(decision D9, log 8). -/
def State.addChecked (s : State) (d : RegIdx) (a b : Word) : State :=
  if addOverflows a b then s.report (.arithmeticOverflow a b) else s.writeBack d (a + b)

end Sys2Proof.Machine
end

