-- ==== Sys2Proof/Machine/Alu.lean ====
section
/-!
DEFINITION. The meanings of the eighteen arithmetic, logical, comparison, shift and load-upper instructions (44_alu.md). The
destination of an immediate form is `x[rt]` (90_conflicts.md C3). Every source register is read before the destination is
written (R188). A field that a meaning ignores (30_encoding.md R68) is named with an underscore.
-/

namespace Sys2Proof.Machine

/-- `add` (R170). `x[rd] <- x[rs] + x[rt]`, or ArithmeticOverflow is reported. -/
def execAdd (rs rt rd : RegIdx) (_shamt : Shamt) (s : State) : Result :=
  .next (s.addChecked rd (s.readReg rs) (s.readReg rt))

/-- `addu` (R171). `x[rd] <- x[rs] + x[rt]` modulo 2^32, no condition. -/
def execAddu (rs rt rd : RegIdx) (_shamt : Shamt) (s : State) : Result :=
  .next (s.writeBack rd (s.readReg rs + s.readReg rt))

/-- `addi` (R172). `x[rt] <- x[rs] + sext_16(imm)`, or ArithmeticOverflow is reported. -/
def execAddi (rs rt : RegIdx) (imm : Imm16) (s : State) : Result :=
  .next (s.addChecked rt (s.readReg rs) (sext16 imm))

/-- `addiu` (R173). `x[rt] <- x[rs] + sext_16(imm)` modulo 2^32 (decision D5, log 11). -/
def execAddiu (rs rt : RegIdx) (imm : Imm16) (s : State) : Result :=
  .next (s.writeBack rt (s.readReg rs + sext16 imm))

/-- `and` (R174). `x[rd] <- x[rs] & x[rt]`. -/
def execAnd (rs rt rd : RegIdx) (_shamt : Shamt) (s : State) : Result :=
  .next (s.writeBack rd (s.readReg rs &&& s.readReg rt))

/-- `or` (R175). `x[rd] <- x[rs] | x[rt]`. -/
def execOr (rs rt rd : RegIdx) (_shamt : Shamt) (s : State) : Result :=
  .next (s.writeBack rd (s.readReg rs ||| s.readReg rt))

/-- `nor` (R176). `x[rd] <- ~(x[rs] | x[rt])`. -/
def execNor (rs rt rd : RegIdx) (_shamt : Shamt) (s : State) : Result :=
  .next (s.writeBack rd (~~~(s.readReg rs ||| s.readReg rt)))

/-- `andi` (R177). `x[rt] <- x[rs] & zext_16(imm)` (decision D5, log 11). -/
def execAndi (rs rt : RegIdx) (imm : Imm16) (s : State) : Result :=
  .next (s.writeBack rt (s.readReg rs &&& zext16 imm))

/-- `ori` (R178). `x[rt] <- x[rs] | zext_16(imm)` (decision D5, log 11). -/
def execOri (rs rt : RegIdx) (imm : Imm16) (s : State) : Result :=
  .next (s.writeBack rt (s.readReg rs ||| zext16 imm))

/-- `slt` (R179). Signed less-than, 1 or 0. -/
def execSlt (rs rt rd : RegIdx) (_shamt : Shamt) (s : State) : Result :=
  .next (s.writeBack rd (setLessSigned (s.readReg rs) (s.readReg rt)))

/-- `slti` (R180). Signed less-than with the sign-extended immediate (decision D5, log 11). -/
def execSlti (rs rt : RegIdx) (imm : Imm16) (s : State) : Result :=
  .next (s.writeBack rt (setLessSigned (s.readReg rs) (sext16 imm)))

/-- `sltu` (R181). Unsigned less-than, 1 or 0. -/
def execSltu (rs rt rd : RegIdx) (_shamt : Shamt) (s : State) : Result :=
  .next (s.writeBack rd (setLessUnsigned (s.readReg rs) (s.readReg rt)))

/-- `sltiu` (R182). The immediate is sign-extended, then the comparison is unsigned (decision D5, log 11). -/
def execSltiu (rs rt : RegIdx) (imm : Imm16) (s : State) : Result :=
  .next (s.writeBack rt (setLessUnsigned (s.readReg rs) (sext16 imm)))

/-- `sll` (R183). `x[rd] <- x[rs] << shamt`; the source is the rs field (decision D6, log 12). -/
def execSll (rs _rt rd : RegIdx) (shamt : Shamt) (s : State) : Result :=
  .next (s.writeBack rd (s.readReg rs <<< shamt.toNat))

/-- `srl` (R184). `x[rd] <- x[rs] >> shamt`, logical; the source is the rs field (decision D6, log 12). -/
def execSrl (rs _rt rd : RegIdx) (shamt : Shamt) (s : State) : Result :=
  .next (s.writeBack rd (s.readReg rs >>> shamt.toNat))

/-- `sub` (R185). `x[rd] <- x[rs] - x[rt]` modulo 2^32, no overflow check. -/
def execSub (rs rt rd : RegIdx) (_shamt : Shamt) (s : State) : Result :=
  .next (s.writeBack rd (s.readReg rs - s.readReg rt))

/-- `subu` (R186). Identical to `sub`. -/
def execSubu (rs rt rd : RegIdx) (_shamt : Shamt) (s : State) : Result :=
  .next (s.writeBack rd (s.readReg rs - s.readReg rt))

/-- `lui` (R187). `x[rt] <- imm ++ 0x0000`. -/
def execLui (_rs rt : RegIdx) (imm : Imm16) (s : State) : Result :=
  .next (s.writeBack rt (upper16 imm))

end Sys2Proof.Machine
end

