-- ==== Sys2Proof/Machine/Control.lean ====
section
/-!
DEFINITION. The meanings of the branches, jumps, the register jump and halt (46_control_transfer.md). There are no delay slots
(R222) and no target needs an alignment (R223).
-/

namespace Sys2Proof.Machine

/-- `beq` (R216): taken when the two registers are equal. -/
def execBeq (rs rt : RegIdx) (imm : Imm16) (s : State) : Result :=
  if s.readReg rs = s.readReg rt then .next (s.redirect (s.branchTarget imm)) else .next s.advance

/-- `bne` (R217): taken when the two registers differ. -/
def execBne (rs rt : RegIdx) (imm : Imm16) (s : State) : Result :=
  if s.readReg rs = s.readReg rt then .next s.advance else .next (s.redirect (s.branchTarget imm))

/-- `j` (R218). -/
def execJ (address : Addr26) (s : State) : Result := .next (s.redirect (s.jumpTarget address))

/-- `jal` (R219): the link register gets the address of the next instruction. -/
def execJal (address : Addr26) (s : State) : Result :=
  .next ((s.writeReg s.cfg.ra (s.pc + 1)).redirect (s.jumpTarget address))

/-- `jr` (R220): all 32 bits of the register become the pc. -/
def execJr (rs _rt _rd : RegIdx) (_shamt : Shamt) (s : State) : Result := .next (s.redirect (s.readReg rs))

/-- `halt` (R221): the run halts, everything else unchanged. -/
def execHalt (s : State) : Result := .next (s.halt .sentinel)

end Sys2Proof.Machine
end

