-- ==== Sys2Proof/Machine/LoadStore.lean ====
section
/-!
DEFINITION. The meanings of the load and store instructions (45_memory_ops.md), and of every undefined encoding
(30_encoding.md R69), which shares the report of the six unimplemented ones.
-/

namespace Sys2Proof.Machine

/-- The report of an unsupported instruction word (60_exceptions.md R242): the six unimplemented instructions and every
undefined encoding (30_encoding.md R69; decision D8, log 14). -/
def execUnsupported (word : Word) (s : State) : Result := .next (s.report (.unsupportedInstruction word))

/-- `lw` (R201): `x[rt]` gets the word at the effective address; outside the array MemoryRange is raised and nothing is written
(decision D10, log 2). -/
def execLw (rs rt : RegIdx) (imm : Imm16) (s : State) : Result :=
  match s.memRead (s.effectiveAddress rs imm) with
  | some v => .next (s.writeBack rt v)
  | none => .next (s.raise (.memoryRange (s.effectiveAddress rs imm)))

/-- `sw` (R202): the word `x[rt]` is stored at the effective address; outside the array MemoryRange is raised and no cell changes
(decision D10, log 2). -/
def execSw (rs rt : RegIdx) (imm : Imm16) (s : State) : Result :=
  match s.memWrite (s.effectiveAddress rs imm) (s.readReg rt) with
  | some t => .next t.advance
  | none => .next (s.raise (.memoryRange (s.effectiveAddress rs imm)))

/-- `lbu` (R203): unimplemented, UnsupportedInstruction is reported; no address is computed. -/
def execLbu (rs rt : RegIdx) (imm : Imm16) (s : State) : Result :=
  execUnsupported (encodeInstr s.cfg (.lbu rs rt imm)) s

/-- `lhu` (R204): unimplemented, UnsupportedInstruction is reported; no address is computed. -/
def execLhu (rs rt : RegIdx) (imm : Imm16) (s : State) : Result :=
  execUnsupported (encodeInstr s.cfg (.lhu rs rt imm)) s

/-- `sb` (R205): unimplemented, UnsupportedInstruction is reported; no address is computed. -/
def execSb (rs rt : RegIdx) (imm : Imm16) (s : State) : Result :=
  execUnsupported (encodeInstr s.cfg (.sb rs rt imm)) s

/-- `sh` (R206): unimplemented, UnsupportedInstruction is reported; no address is computed. -/
def execSh (rs rt : RegIdx) (imm : Imm16) (s : State) : Result :=
  execUnsupported (encodeInstr s.cfg (.sh rs rt imm)) s

/-- `ll` (R207): unimplemented, UnsupportedInstruction is reported; no address is computed. -/
def execLl (rs rt : RegIdx) (imm : Imm16) (s : State) : Result :=
  execUnsupported (encodeInstr s.cfg (.ll rs rt imm)) s

/-- `sc` (R208): unimplemented, UnsupportedInstruction is reported; no address is computed. -/
def execSc (rs rt : RegIdx) (imm : Imm16) (s : State) : Result :=
  execUnsupported (encodeInstr s.cfg (.sc rs rt imm)) s

end Sys2Proof.Machine
end

