-- ==== Sys2Proof/Machine/Dispatch.lean ====
section
/-!
DEFINITION. The dispatch: one arm per constructor of Instr, each one call of the instruction's meaning. Every arm passes every
field of the word, those the operation ignores too (30_encoding.md R68).
-/

namespace Sys2Proof.Machine

def exec (i : Instr) (s : State) : Host.Outcome State Fault Refusal :=
  match i with
  -- Register format (30_encoding.md R64)
  | .sll rs rt rd shamt => Sys2Proof.Machine.execSll rs rt rd shamt s
  | .srl rs rt rd shamt => Sys2Proof.Machine.execSrl rs rt rd shamt s
  | .jr rs rt rd shamt => Sys2Proof.Machine.execJr rs rt rd shamt s
  | .add rs rt rd shamt => Sys2Proof.Machine.execAdd rs rt rd shamt s
  | .addu rs rt rd shamt => Sys2Proof.Machine.execAddu rs rt rd shamt s
  | .sub rs rt rd shamt => Sys2Proof.Machine.execSub rs rt rd shamt s
  | .subu rs rt rd shamt => Sys2Proof.Machine.execSubu rs rt rd shamt s
  | .and rs rt rd shamt => Sys2Proof.Machine.execAnd rs rt rd shamt s
  | .or rs rt rd shamt => Sys2Proof.Machine.execOr rs rt rd shamt s
  | .nor rs rt rd shamt => Sys2Proof.Machine.execNor rs rt rd shamt s
  | .slt rs rt rd shamt => Sys2Proof.Machine.execSlt rs rt rd shamt s
  | .sltu rs rt rd shamt => Sys2Proof.Machine.execSltu rs rt rd shamt s
  -- Immediate format (30_encoding.md R63)
  | .beq rs rt imm => Sys2Proof.Machine.execBeq rs rt imm s
  | .bne rs rt imm => Sys2Proof.Machine.execBne rs rt imm s
  | .addi rs rt imm => Sys2Proof.Machine.execAddi rs rt imm s
  | .addiu rs rt imm => Sys2Proof.Machine.execAddiu rs rt imm s
  | .slti rs rt imm => Sys2Proof.Machine.execSlti rs rt imm s
  | .sltiu rs rt imm => Sys2Proof.Machine.execSltiu rs rt imm s
  | .andi rs rt imm => Sys2Proof.Machine.execAndi rs rt imm s
  | .ori rs rt imm => Sys2Proof.Machine.execOri rs rt imm s
  | .lui rs rt imm => Sys2Proof.Machine.execLui rs rt imm s
  | .lw rs rt imm => Sys2Proof.Machine.execLw rs rt imm s
  | .lbu rs rt imm => Sys2Proof.Machine.execLbu rs rt imm s
  | .lhu rs rt imm => Sys2Proof.Machine.execLhu rs rt imm s
  | .sb rs rt imm => Sys2Proof.Machine.execSb rs rt imm s
  | .sh rs rt imm => Sys2Proof.Machine.execSh rs rt imm s
  | .sw rs rt imm => Sys2Proof.Machine.execSw rs rt imm s
  | .ll rs rt imm => Sys2Proof.Machine.execLl rs rt imm s
  | .sc rs rt imm => Sys2Proof.Machine.execSc rs rt imm s
  -- Jump format (30_encoding.md R54)
  | .j address => Sys2Proof.Machine.execJ address s
  | .jal address => Sys2Proof.Machine.execJal address s
  -- The sentinel (30_encoding.md R55)
  | .halt => Sys2Proof.Machine.execHalt s

end Sys2Proof.Machine
end

