-- ==== Sys2Proof/Machine/RunLoop.lean ====
section
/-!
DEFINITION. The step of the CPU agent (43_run_loop.md R153) and the observer (60_exceptions.md R256).
-/

namespace Sys2Proof.Machine

/-- The execution of a fetched word (R153): the instruction it decodes to, or, for an undefined encoding, the report of
30_encoding.md R69. -/
def execWord (w : Word) (s : State) : Result :=
  match decodeWord s.cfg w with
  | .ok i => exec i s
  | .error (.undefinedEncoding word) => execUnsupported word s

/-- What the run loop adds after an instruction (R153): the fuel counter, if the run goes on. -/
def afterExec : Result → Result
  | .next s => .next s.spendFuel
  | .fault r => .fault r
  | .refused r => .refused r

/-- The fetch, MemRead(pc, 1) (20_memory.md R42), and the execution of the word. Below `staticDataBase` the fetch cannot fail
(R155). -/
def fetchAndExec (s : State) : Result :=
  match s.memRead s.pc with
  | some w => afterExec (execWord w s)
  | none => .next (s.raise (.memoryRange s.pc))

/-- One step of a running core (R153): the fuel test, the range test, then fetch, decode and execute. -/
def cycle (s : State) : Result :=
  if s.fuelExhausted then .next s.endOutOfFuel
  else if s.pcExhausted then .next (s.halt .rangeExhausted)
  else fetchAndExec s

/-- A step is enabled only when the core is running (R153); idle and ended cores take none (log 3). -/
def stepOf (s : State) : Result :=
  match s.runState with
  | .idle => .fault .idle
  | .running => cycle s
  | .halted _ => .fault .ended
  | .faulted _ => .fault .ended
  | .outOfFuel => .fault .ended

/-- What the observer is handed (60_exceptions.md R256). -/
structure Observation where
  pc : Word
  decoded : Instruction
  text : Text
  deriving DecidableEq, Repr

/-- The call of the observer in the step from `s` (R256): once per fetched word, the halt sentinel included, and none where the
step fetches nothing. It changes no state. The text is free (R71; log 21). -/
def observation (s : State) : Option Observation :=
  if s.runState = .running && !s.fuelExhausted && !s.pcExhausted then
    (s.memRead s.pc).map fun w => { pc := s.pc, decoded := decode w, text := Config.disassemblyText s.cfg w }
  else none

/-- A running core about to fetch: Run has been issued, one instruction's worth of fuel is left if FUEL is given, and the pc is
in the range that is fetched from. -/
def State.readyToFetch (s : State) : State :=
  { s with
    runState := .running
    fuel := if s.fuel = some 0 then some 1 else s.fuel
    pc := if s.pcExhausted then BitVec.ofNat 32 textBase else s.pc }

/-- A word placed at the address the next step fetches from, with no range test. -/
def State.placeAtPc (s : State) (w : Word) : State := { s with mem := s.mem.write s.pc.toNat w }

end Sys2Proof.Machine
end

