-- ==== Sys2Proof/Machine/Step.lean ====
section
/-!
DEFINITION. One step of the machine, and the machine with a given instruction where the next step fetches.
-/

namespace Sys2Proof.Machine

/-- One step of the CPU agent (43_run_loop.md R153). -/
def step (s : State) : Host.Outcome State Fault Refusal := stepOf s

/-- `s` made ready to run the instruction whose bits are `w` as its very next step: the word stands where the step fetches and
Run has been issued. It stands for the host's Load and Run (43_run_loop.md R152; log 17). -/
def State.withFetchWord (s : State) (nbits w : Nat) : State :=
  s.readyToFetch.placeAtPc (BitVec.ofNat 32 (w % 2 ^ nbits))

end Sys2Proof.Machine
end

