-- ==== Sys2Proof/Machine/Loader.lean ====
section
/-!
DEFINITION. The load agent (43_run_loop.md R150, R151): a Program copied into memory, or a load error and no change.
-/

namespace Sys2Proof.Machine

/-- The load errors with their address and size (43_run_loop.md R151; 60_exceptions.md R258, R259). -/
inductive LoadError where
  | programTooLarge (address : Word) (size : Nat)
  | dataTooLarge (address : Word) (size : Nat)
  deriving DecidableEq, Repr

/-- The checks of R151, made before any word is written: the program first, then the data; lengths equal to the thresholds
pass (decision D16). -/
def loadCheck (p : Program) : Option LoadError :=
  if staticDataBase - textBase < p.bin.length then
    some (.programTooLarge (BitVec.ofNat 32 textBase) p.bin.length)
  else if dynamicBase - staticDataBase < p.staticData.length then
    some (.dataTooLarge (BitVec.ofNat 32 staticDataBase) p.staticData.length)
  else none

/-- The copy of R150: `bin` from TEXT_BASE on, `staticData` from STATIC_DATA_BASE on, every other cell as before. -/
def Memory.loadProgram (m : Memory) (p : Program) : Memory :=
  (m.writeList textBase p.bin).writeList staticDataBase p.staticData

/-- Load (R150, R151): it changes no register, not the pc, not the run state and not the log. -/
def State.loadProgram (s : State) (p : Program) : Except LoadError State :=
  match loadCheck p with
  | some e => .error e
  | none => .ok { s with mem := s.mem.loadProgram p }

end Sys2Proof.Machine
end

