-- ==== Sys2Proof/Machine/HostPort.lean ====
section
/-!
DEFINITION. The host's four actions on the core (43_run_loop.md R152, R160) and what it reads after a run (R157). They stand
outside `step`: the host has no action while the core runs.
-/

namespace Sys2Proof.Machine

/-- The four things the host can do to the core (R152). -/
inductive HostAction where
  | reset
  | setReg (i : RegIdx) (v : Word)
  | load (p : Program)
  | run
  deriving DecidableEq, Repr

/-- Why a host action is refused: R152 gives it no meaning there (93_implementation_defined.md U16). Safe. -/
inductive HostRefusal where
  /-- Any action, Reset included, while the core runs: "While `run_state = Running` the host has no action" (R152). -/
  | running
  /-- SetReg, Load or Run in a terminal run state. -/
  | notIdle
  /-- A second Load since reset. -/
  | secondLoad
  deriving DecidableEq, Repr

/-- What a host action comes to: done; a load error, with the core as it is then; or refused. -/
inductive HostResult where
  | done (s : State)
  | loadFailed (e : LoadError) (s : State)
  | refused (r : HostRefusal)
  deriving DecidableEq, Repr

/-- The core with its one Load since reset used (log 16). -/
def State.useLoad (s : State) : State := { s with loadUsed := true }

/-- Run (R152): the core starts running. -/
def State.startRun (s : State) : State := { s with runState := .running }

/-- Load by the host (R150 to R152): once per reset; a failed Load leaves the core idle and its memory as it was. -/
def State.hostLoad (s : State) (p : Program) : HostResult :=
  if s.loadUsed then .refused .secondLoad
  else
    match s.loadProgram p with
    | .ok t => .done t.useLoad
    | .error e => .loadFailed e s.useLoad

/-- A host action on a core that does not run (R152): Reset from the idle state and from every terminal one; the others only while
the core is idle. -/
def hostActAtRest (a : HostAction) (s : State) : HostResult :=
  match a with
  | .reset => .done (State.resetWith s.cfg)
  | .setReg i v => if s.runState = .idle then .done (s.writeReg i v) else .refused .notIdle
  | .load p => if s.runState = .idle then s.hostLoad p else .refused .notIdle
  | .run => if s.runState = .idle then .done s.startRun else .refused .notIdle

/-- A host action (R152): none while the core runs (00_scope.md R3; 60_exceptions.md R246). -/
def hostAct (a : HostAction) (s : State) : HostResult :=
  if s.runState = .running then .refused .running else hostActAtRest a s

/-- What the host may read after the run (R152, R157). -/
structure FinalView where
  regs : Vector Word 32
  pc : Word
  mem : Memory
  runState : RunState
  diag : List DiagEntry
  deriving DecidableEq, Repr

/-- The final state the host observes (R157); while the core runs there is none (R152). -/
def State.finalView (s : State) : Option FinalView :=
  if s.runState = .running then none
  else some { regs := s.regs, pc := s.pc, mem := s.mem, runState := s.runState, diag := s.diag }

end Sys2Proof.Machine
end

