-- ==== Sys2Proof/Machine/Parser.lean ====
section
/-!
DEFINITION. The Statement Parser (40_assembler_syntax.md): source lines to a Protogram, or the error of the first failing line.
-/

namespace Sys2Proof.Machine

/-- The parse errors with their context (60_exceptions.md R258, R259). -/
inductive ParseError where
  | lookupFailure (token : Text)
  | argumentCountMismatch (tokens : List Text)
  | malformedOperand (token : Text)
  | malformedStaticData (line : Text)
  | malformedStatement (line : Text)
  deriving DecidableEq, Repr

/-! ### Characters, trimming and tokens (R91) -/

/-- White space (log 18). -/
def isBlank (c : Char) : Bool := c.isWhitespace

/-- A token separator: white space, or a comma, which counts as a space (R91). -/
def isSeparator (c : Char) : Bool := isBlank c || c == ','

/-- A line without its leading and trailing white space (R91). -/
def trim (t : Text) : Text := ((t.dropWhile isBlank).reverse.dropWhile isBlank).reverse

/-- A text without its leading and trailing separators: what trimming leaves of it once every comma is a space (R91, R92). -/
def trimSeparators (t : Text) : Text := ((t.dropWhile isSeparator).reverse.dropWhile isSeparator).reverse

/-- The tokens of a text, `current` the reversed characters of the token being read. -/
def tokensFrom : Text → Text → List Text
  | [], [] => []
  | [], current => [current.reverse]
  | c :: t, current =>
    if isSeparator c then
      match current with
      | [] => tokensFrom t []
      | _ :: _ => current.reverse :: tokensFrom t []
    else tokensFrom t (c :: current)

/-- The space- or comma-separated tokens of a text (R91); runs of separators count as one. -/
def tokens (t : Text) : List Text := tokensFrom t []

/-- The text split once at the first colon (R92): the left part and the right part. -/
def splitColon : Text → Option (Text × Text)
  | [] => none
  | c :: t => if c == ':' then some ([], t) else (splitColon t).map fun p => (c :: p.1, p.2)

/-! ### Literals (R103) -/

/-- A token is a numeric literal when it begins with a digit, or with `-` and a digit (R103; 90_conflicts.md C6). -/
def isNumeric : Text → Bool
  | [] => false
  | [c] => c.isDigit
  | c :: d :: _ => c.isDigit || (c == '-' && d.isDigit)

/-- The value of a sequence of decimal digits after a prefix of value `acc`, if every character is a digit. -/
def digitsValue : Text → Nat → Option Nat
  | [], acc => some acc
  | c :: t, acc => if c.isDigit then digitsValue t (acc * 10 + (c.toNat - '0'.toNat)) else none

/-- The integer a numeric literal stands for, `none` where a character is not a digit (R103). -/
def literalValue : Text → Option Int
  | [] => none
  | c :: t =>
    if c == '-' then (if t = [] then none else (digitsValue t 0).map fun n => -(n : Int))
    else (digitsValue (c :: t) 0).map fun n => (n : Int)

/-- An integer reduced to a field of `width` bits (R103; decision D13). -/
def reduce (v : Int) (width : Nat) : Nat := (v % (2 ^ width : Int)).toNat

/-- The numeric literal of an operand that may not be symbolic (R96, R98). -/
def literalOperand (token : Text) : Except ParseError Int :=
  if isNumeric token then
    match literalValue token with
    | some v => .ok v
    | none => .error (.malformedOperand token)
  else .error (.malformedOperand token)

/-- A final operand that may be symbolic (R99, R101, R103): the number, or the name. -/
def finalOperand (token : Text) : Except ParseError (Int ⊕ Text) :=
  if isNumeric token then
    match literalValue token with
    | some v => .ok (.inl v)
    | none => .error (.malformedOperand token)
  else .ok (.inr token)

/-- A register operand (R66, R104). -/
def registerOperand (cfg : Config) (token : Text) : Except ParseError Nat :=
  match regIndex cfg token with
  | some i => .ok i.toNat
  | none => .error (.lookupFailure token)

/-! ### Instruction statements (R94 to R102) -/

/-- The record of a final operand (R99 to R101, R103): a literal fills the field, a name is kept and the field is 0. -/
def withFinal (cfg : Config) (m : Mnemonic) (v : Nat → Variant) (width : Nat) : Int ⊕ Text → Instruction
  | .inl n => Instruction.make cfg m (v (reduce n width))
  | .inr name => { Instruction.make cfg m (v 0) with symbolicOperand := some name }

/-- The three-register shape `rd, rs, rt` (R95). -/
def parseThreeRegisters (cfg : Config) (op : RegOp) (all : List Text) : List Text → Except ParseError Instruction
  | [a, b, c] => do
    let rd ← registerOperand cfg a
    let rs ← registerOperand cfg b
    let rt ← registerOperand cfg c
    return Instruction.make cfg (.reg op) (.register rs rt rd 0 (cfg.func.code op).toNat)
  | _ => .error (.argumentCountMismatch all)

/-- The shift shape `rd, rs, shamt` (R96; decision D6). -/
def parseShift (cfg : Config) (op : RegOp) (all : List Text) : List Text → Except ParseError Instruction
  | [a, b, c] => do
    let rd ← registerOperand cfg a
    let rs ← registerOperand cfg b
    let n ← literalOperand c
    return Instruction.make cfg (.reg op) (.register rs 0 rd (reduce n 5) (cfg.func.code op).toNat)
  | _ => .error (.argumentCountMismatch all)

/-- The register-jump shape `rs` (R97). -/
def parseRegisterJump (cfg : Config) (op : RegOp) (all : List Text) : List Text → Except ParseError Instruction
  | [a] => do
    let rs ← registerOperand cfg a
    return Instruction.make cfg (.reg op) (.register rs 0 0 0 (cfg.func.code op).toNat)
  | _ => .error (.argumentCountMismatch all)

/-- The characters up to the first `(` and those after it. -/
def splitParen : Text → Option (Text × Text)
  | [] => none
  | c :: t => if c == '(' then some ([], t) else (splitParen t).map fun p => (c :: p.1, p.2)

/-- `offset(base)` taken apart (R98); `none` where the token lacks a balanced pair of parentheses at its end. -/
def splitMemoryOperand (token : Text) : Option (Text × Text) :=
  match splitParen token with
  | none => none
  | some (offset, rest) =>
    match rest.reverse with
    | ')' :: base => if base.any (fun c => c == '(' || c == ')') then none else some (offset, base.reverse)
    | _ => none

/-- The memory shape `rt, offset(base)` (R98; decision D19). -/
def parseMemory (cfg : Config) (op : ImmOp) (all : List Text) : List Text → Except ParseError Instruction
  | [a, b] => do
    let rt ← registerOperand cfg a
    match splitMemoryOperand b with
    | none => .error (.malformedOperand b)
    | some (offset, base) =>
      match literalOperand offset with
      | .error _ => .error (.malformedOperand b)
      | .ok n =>
        let rs ← registerOperand cfg base
        return Instruction.make cfg (.imm op) (.immediate rs rt (reduce n 16))
  | _ => .error (.argumentCountMismatch all)

/-- The immediate shape `rt, rs, immediate` (R99). -/
def parseImmediate (cfg : Config) (op : ImmOp) (all : List Text) : List Text → Except ParseError Instruction
  | [a, b, c] => do
    let rt ← registerOperand cfg a
    let rs ← registerOperand cfg b
    let f ← finalOperand c
    return withFinal cfg (.imm op) (fun n => .immediate rs rt n) 16 f
  | _ => .error (.argumentCountMismatch all)

/-- `lui rt, immediate`, or the three-operand form of R99 (R100; decision D19). -/
def parseLui (cfg : Config) (all : List Text) : List Text → Except ParseError Instruction
  | [a, c] => do
    let rt ← registerOperand cfg a
    let f ← finalOperand c
    return withFinal cfg (.imm .lui) (fun n => .immediate 0 rt n) 16 f
  | rest => parseImmediate cfg .lui all rest

/-- The jump shape: one address or label (R101). -/
def parseJump (cfg : Config) (op : JumpOp) (all : List Text) : List Text → Except ParseError Instruction
  | [a] => do
    let f ← finalOperand a
    return withFinal cfg (.jump op) (fun n => .jump n) 26 f
  | _ => .error (.argumentCountMismatch all)

/-- `halt`, no operands (R102). -/
def parseHalt (cfg : Config) (all : List Text) : List Text → Except ParseError Instruction
  | [] => .ok (Instruction.make cfg .halt .halt)
  | _ => .error (.argumentCountMismatch all)

/-- The shape of a mnemonic's operands (R94 to R102). -/
def parseOperands (cfg : Config) (all rest : List Text) : Mnemonic → Except ParseError Instruction
  | .reg .sll => parseShift cfg .sll all rest
  | .reg .srl => parseShift cfg .srl all rest
  | .reg .jr => parseRegisterJump cfg .jr all rest
  | .reg .add => parseThreeRegisters cfg .add all rest
  | .reg .addu => parseThreeRegisters cfg .addu all rest
  | .reg .sub => parseThreeRegisters cfg .sub all rest
  | .reg .subu => parseThreeRegisters cfg .subu all rest
  | .reg .and => parseThreeRegisters cfg .and all rest
  | .reg .or => parseThreeRegisters cfg .or all rest
  | .reg .nor => parseThreeRegisters cfg .nor all rest
  | .reg .slt => parseThreeRegisters cfg .slt all rest
  | .reg .sltu => parseThreeRegisters cfg .sltu all rest
  | .imm .lui => parseLui cfg all rest
  | .imm .lw => parseMemory cfg .lw all rest
  | .imm .sw => parseMemory cfg .sw all rest
  | .imm .lbu => parseMemory cfg .lbu all rest
  | .imm .lhu => parseMemory cfg .lhu all rest
  | .imm .sb => parseMemory cfg .sb all rest
  | .imm .sh => parseMemory cfg .sh all rest
  | .imm .ll => parseMemory cfg .ll all rest
  | .imm .sc => parseMemory cfg .sc all rest
  | .imm .beq => parseImmediate cfg .beq all rest
  | .imm .bne => parseImmediate cfg .bne all rest
  | .imm .addi => parseImmediate cfg .addi all rest
  | .imm .addiu => parseImmediate cfg .addiu all rest
  | .imm .slti => parseImmediate cfg .slti all rest
  | .imm .sltiu => parseImmediate cfg .sltiu all rest
  | .imm .andi => parseImmediate cfg .andi all rest
  | .imm .ori => parseImmediate cfg .ori all rest
  | .jump op => parseJump cfg op all rest
  | .halt => parseHalt cfg all rest

/-- An instruction statement from its tokens (R94). -/
def parseTokens (cfg : Config) : List Text → Except ParseError Instruction
  | [] => .error (.argumentCountMismatch [])
  | name :: rest =>
    match mnemonicOf name with
    | none => .error (.lookupFailure name)
    | some m => parseOperands cfg (name :: rest) rest m

/-- An instruction body (R91, R94). -/
def parseBody (cfg : Config) (body : Text) : Except ParseError Instruction := parseTokens cfg (tokens body)

/-- A label name is a non-empty text without separators (91_not_in_source.md N17; log 24). -/
def isLabelName (name : Text) : Bool := name ≠ [] && !name.any isSeparator

/-- A text line taken apart (R92): its label, if it has one, and its body. The line is split once, at the first colon, so of two
labels on one line (`a: b: halt`) the second is read as the mnemonic `b:` and the line gives LookupFailure of it, not the
MalformedStatement of two labels for one instruction (R93): the model's choice where the spec leaves the point open (log 29). The
label is trimmed of commas too, which count as spaces before the line is split (R91). -/
def splitLabel (line : Text) : Except ParseError (Option Text × Text) :=
  match splitColon line with
  | none => .ok (none, line)
  | some (left, right) =>
    if isLabelName (trimSeparators left) then .ok (some (trimSeparators left), right) else .error (.malformedStatement line)

/-! ### Static-data statements (R105 to R108) -/

/-- The double quote of R108. -/
def quoteChar : Char := Char.ofNat 34

/-- The characters between the first and the last double quote (R108), which must be two. -/
def quoted (t : Text) : Option Text :=
  match t.dropWhile (fun c => c ≠ quoteChar) with
  | [] => none
  | _ :: rest =>
    match rest.reverse.dropWhile (fun c => c ≠ quoteChar) with
    | [] => none
    | _ :: inner => some inner.reverse

/-- The words of a list of literals, each modulo 2^32 (R106); `none` where a token is not a literal. -/
def wordLiterals : List Text → Option (List Word)
  | [] => some []
  | t :: ts =>
    if isNumeric t then
      match literalValue t, wordLiterals ts with
      | some v, some ws => some (BitVec.ofInt 32 v :: ws)
      | _, _ => none
    else none

/-- The words of `.word` (R106): at least one literal. -/
def wordData (expr : Text) : Option (List Word) :=
  match tokens expr with
  | [] => none
  | t :: ts => wordLiterals (t :: ts)

/-- The words of `.space N` (R107): one literal that is not negative. -/
def spaceData (expr : Text) : Option (List Word) :=
  match tokens expr with
  | [t] =>
    if isNumeric t then
      match literalValue t with
      | some v => if v < 0 then none else some (List.replicate v.toNat 0)
      | none => none
    else none
  | _ => none

/-- The words of `.asciiz` (R108): one word per character and a trailing zero word; no escapes (decision D22). -/
def asciizData (expr : Text) : Option (List Word) :=
  (quoted expr).map fun t => t.map (fun c => BitVec.ofNat 32 c.toNat) ++ [0]

/-- The words of a directive (R105); `none` where it is not recognised or its value is malformed. -/
def directiveData (directive expr : Text) : Option (List Word) :=
  if directive = ".word".toList then wordData expr
  else if directive = ".space".toList then spaceData expr
  else if directive = ".asciiz".toList then asciizData expr
  else none

/-- A data line (R105): label, directive and value expression; anything else is malformed static data. -/
def parseData (line : Text) : Except ParseError StaticData :=
  match splitColon line with
  | none => .error (.malformedStaticData line)
  | some (left, right) =>
    let body := right.dropWhile isSeparator
    let directive := body.takeWhile fun c => !isSeparator c
    let expr := trim (body.dropWhile fun c => !isSeparator c)
    if !isLabelName (trimSeparators left) || expr = [] then .error (.malformedStaticData line)
    else
      match directiveData directive expr with
      | some ws => .ok { label := trimSeparators left, words := ws }
      | none => .error (.malformedStaticData line)

/-! ### The source text (R90, R93, R109) -/

/-- The active section (R90); none before the first directive. -/
inductive Section where
  | none
  | text
  | data
  deriving DecidableEq, Repr

/-- The parser between two lines: the section, a label waiting for its instruction with its line (R93), and the two lists, latest
element first. -/
structure ParserState where
  active : Section
  pending : Option (Text × Text)
  instrs : List Instruction
  data : List StaticData
  deriving DecidableEq, Repr

/-- The parser before the first line. -/
def ParserState.start : ParserState := { active := .none, pending := none, instrs := [], data := [] }

/-- A text statement (R92, R93): a label-only line waits for the next instruction; an instruction has one label at most. Where a
line with a label of its own, or a second label-only line, follows a label-only line, MalformedStatement carries that later line, not
the label-only one: the model's choice, R93 names only the error (log 33). Two labels on one line are a failed lookup of the second
(`splitLabel`; log 29). -/
def parseText (cfg : Config) (p : ParserState) (line : Text) : Except ParseError ParserState := do
  let (label, body) ← splitLabel line
  match label, p.pending, tokens body with
  | some _, some _, _ => .error (.malformedStatement line)
  | some name, none, [] => return { p with pending := some (name, line) }
  | some name, none, _ :: _ =>
    let d ← parseBody cfg body
    return { p with instrs := { d with label := some name } :: p.instrs }
  | none, pending, _ =>
    let d ← parseBody cfg body
    return { p with instrs := { d with label := pending.map Prod.fst } :: p.instrs, pending := none }

/-- One line of source (R90): a directive switches the section, a line without a token is blank, any other line is a statement
of the active section (decision D20). -/
def parseLine (cfg : Config) (p : ParserState) (source : Text) : Except ParseError ParserState :=
  let line := trim source
  if line = ".text".toList then .ok { p with active := .text }
  else if line = ".data".toList then .ok { p with active := .data }
  else if tokens line = [] then .ok p
  else
    match p.active with
    | .none => .error (.malformedStatement line)
    | .text => parseText cfg p line
    | .data => (parseData line).map fun d => { p with data := d :: p.data }

/-- The lines of source in order; the first failing line ends the parse (R104, R109). -/
def parseLines (cfg : Config) : ParserState → List Text → Except ParseError ParserState
  | p, [] => .ok p
  | p, l :: ls =>
    match parseLine cfg p l with
    | .ok q => parseLines cfg q ls
    | .error e => .error e

/-- The Statement Parser (R90 to R109): a Protogram, or an error and no Protogram; a label that waits for an instruction at the
end is misplaced (R93), and the error carries its label-only line: the model's choice (log 33). -/
def parse (cfg : Config) (lines : List Text) : Except ParseError Protogram :=
  match parseLines cfg ParserState.start lines with
  | .error e => .error e
  | .ok p =>
    match p.pending with
    | some (_, line) => .error (.malformedStatement line)
    | none => .ok { instrs := p.instrs.reverse, data := p.data.reverse }

end Sys2Proof.Machine
end

