-- ==== Sys2Proof/Machine/SymbolTable.lean ====
section
/-!
DEFINITION. The Symbol Table Builder (41_symbol_table.md): the two lists of a Protogram to the Symbol Table, or a link error.
-/

namespace Sys2Proof.Machine

/-- The link errors with the name they carry (60_exceptions.md R258, R259). -/
inductive LinkError where
  /-- Raised by the Symbol Table Builder: a label defined twice (41_symbol_table.md R125). -/
  | duplicateLabel (name : Text)
  /-- Raised by the Linker: a symbol without a definition (42_linker.md R131). -/
  | undefinedLabel (name : Text)
  deriving DecidableEq, Repr

/-- The address of a label. -/
def lookupSymbol : SymbolTable → Text → Option Word
  | [], _ => none
  | e :: t, name => if e.1 = name then some e.2 else lookupSymbol t name

/-- `insert` (R125): a name already in the table fails the link (decision D14). -/
def insertSymbol (t : SymbolTable) (name : Text) (a : Word) : Except LinkError SymbolTable :=
  match lookupSymbol t name with
  | some _ => .error (.duplicateLabel name)
  | none => .ok (t ++ [(name, a)])

/-- The text labels from instruction index `i` on (R121): TEXT_BASE + index. -/
def insertText : SymbolTable → Nat → List Instruction → Except LinkError SymbolTable
  | t, _, [] => .ok t
  | t, i, d :: ds =>
    match d.label with
    | none => insertText t (i + 1) ds
    | some name =>
      match insertSymbol t name (BitVec.ofNat 32 (textBase + i)) with
      | .ok u => insertText u (i + 1) ds
      | .error e => .error e

/-- The data labels from word offset `off` on (R122): STATIC_DATA_BASE plus the words of the preceding elements. -/
def insertData : SymbolTable → Nat → List StaticData → Except LinkError SymbolTable
  | t, _, [] => .ok t
  | t, off, d :: ds =>
    match insertSymbol t d.label (BitVec.ofNat 32 (staticDataBase + off)) with
    | .ok u => insertData u (off + d.words.length) ds
    | .error e => .error e

/-- The Symbol Table of a Protogram (R120), text labels first (log 20). -/
def buildTable (p : Protogram) : Except LinkError SymbolTable :=
  match insertText [] 0 p.instrs with
  | .ok t => insertData t 0 p.data
  | .error e => .error e

end Sys2Proof.Machine
end

