-- ==== Sys2Proof/Machine/Linker.lean ====
section
/-!
DEFINITION. The Linker (42_linker.md): symbolic operands resolved, values derived anew, the Program emitted.
-/

namespace Sys2Proof.Machine

/-- The opcode of a record is that of `beq` or `bne` (R132). -/
def isBranch (cfg : Config) (d : Instruction) : Bool :=
  d.opcode == cfg.opc.beq.toNat || d.opcode == cfg.opc.bne.toNat

/-- The signed offset of a branch at index `i` to `target` (R132): relative to the instruction after the branch, in words. -/
def branchOffset (i : Nat) (target : Word) : Int := (target.toNat : Int) - ((textBase : Int) + 1 + (i : Int))

/-- The tag with the resolved field, reduced to its width (R132 to R134; decision D13, log 23). -/
def resolveVariant (cfg : Config) (i : Nat) (d : Instruction) (target : Word) : Variant :=
  match d.variant with
  | .immediate rs rt _ =>
    if isBranch cfg d then .immediate rs rt (reduce (branchOffset i target) 16)
    else .immediate rs rt (target.toNat % 2 ^ 16)
  | .jump _ => .jump (target.toNat % 2 ^ 26)
  | .register rs rt rd shamt func => .register rs rt rd shamt func
  | .halt => .halt

/-- The linker acts on Immediate and Jump records only (R139). -/
def Variant.relocates : Variant → Bool
  | .immediate _ _ _ => true
  | .jump _ => true
  | .register _ _ _ _ _ => false
  | .halt => false

/-- One instruction relocated (R130 to R135, R139): without a symbolic operand it is left as it is. A Register or Halt record that
carries one is left as it is too, its symbolic operand included, and the link goes on (R139), although R141 says that no
instruction keeps one on success: the model's choice (log 31). No parsed Protogram has such a record. -/
def relocate (cfg : Config) (t : SymbolTable) (i : Nat) (d : Instruction) : Except LinkError Instruction :=
  match d.symbolicOperand with
  | none => .ok d
  | some name =>
    if Variant.relocates d.variant then
      match lookupSymbol t name with
      | none => .error (.undefinedLabel name)
      | some target =>
        .ok (Instruction.rederive { d with variant := resolveVariant cfg i d target, symbolicOperand := none })
    else .ok d

/-- The instruction list relocated in order from index `i` on (R130); the first failing lookup ends the link (R131). -/
def relocateFrom (cfg : Config) (t : SymbolTable) : Nat → List Instruction → Except LinkError (List Instruction)
  | _, [] => .ok []
  | i, d :: ds =>
    match relocate cfg t i d with
    | .error e => .error e
    | .ok d' =>
      match relocateFrom cfg t (i + 1) ds with
      | .error e => .error e
      | .ok ds' => .ok (d' :: ds')

/-- The Protogram after linking (R135): the one mutation after parsing. -/
def linkProtogram (cfg : Config) (p : Protogram) (t : SymbolTable) : Except LinkError Protogram :=
  match relocateFrom cfg t 0 p.instrs with
  | .ok ds => .ok { p with instrs := ds }
  | .error e => .error e

/-- The image of a Protogram (R136, R137): the values in order, and the data words concatenated. -/
def emit (p : Protogram) : Program where
  bin := p.instrs.map Instruction.value
  staticData := p.data.flatMap StaticData.words

/-- `link` (R130): a Program, or an error and no Program (R141). -/
def link (cfg : Config) (p : Protogram) (t : SymbolTable) : Except LinkError Program :=
  match linkProtogram cfg p t with
  | .ok q => .ok (emit q)
  | .error e => .error e

/-- The link agent (00_scope.md R2): table, then link; DuplicateLabel comes before any UndefinedLabel (decision D23). -/
def linkAgent (cfg : Config) (p : Protogram) : Except LinkError Program :=
  match buildTable p with
  | .ok t => link cfg p t
  | .error e => .error e

/-- One instruction's part of `link_fits` (R140). A jump's target agrees with the jump's own address TEXT_BASE + i, which is a 32-bit
word (41_symbol_table.md R123), in bits 31:26. An Immediate or Jump record whose symbol is not defined does not fit: the model's
choice (log 30). -/
def instructionFits (cfg : Config) (t : SymbolTable) (i : Nat) (d : Instruction) : Bool :=
  match d.symbolicOperand with
  | none => true
  | some name =>
    match lookupSymbol t name with
    | none => !Variant.relocates d.variant
    | some target =>
      match d.variant with
      | .immediate _ _ _ =>
        if isBranch cfg d then -32768 ≤ branchOffset i target && branchOffset i target ≤ 32767
        else target.toNat < 2 ^ 16
      | .jump _ => bits target 31 26 = bits (BitVec.ofNat 32 (textBase + i)) 31 26
      | .register _ _ _ _ _ => true
      | .halt => true

/-- `link_fits` from index `i` on. -/
def fitsFrom (cfg : Config) (t : SymbolTable) : Nat → List Instruction → Bool
  | _, [] => true
  | i, d :: ds => instructionFits cfg t i d && fitsFrom cfg t (i + 1) ds

/-- `link_fits` (R140): every resolved value fits its field. The linker does not check it. -/
def linkFits (cfg : Config) (p : Protogram) (t : SymbolTable) : Bool := fitsFrom cfg t 0 p.instrs

/-- Why a source text gives no Program. -/
inductive BuildError where
  | parse (e : ParseError)
  | link (e : LinkError)
  deriving DecidableEq, Repr

/-- Source lines to a Program (00_scope.md R2): parse, then link. -/
def assemble (cfg : Config) (lines : List Text) : Except BuildError Program :=
  match parse cfg lines with
  | .error e => .error (.parse e)
  | .ok p =>
    match linkAgent cfg p with
    | .error e => .error (.link e)
    | .ok q => .ok q

end Sys2Proof.Machine
end

