-- ==== Sys2Proof/Safety.lean ====
section
/-!
DEFINITION. The terms claims are stated in: the ends of a run (43_run_loop.md R157), runs, the invariant of the machine, and the
frames of the instructions (what an instruction changes, and that it changes nothing else).
-/

namespace Sys2Proof.Machine

/-! ### Runs and their ends -/

/-- The run has ended: a terminal run state (10_state.md R18). -/
def RunState.ended : RunState → Bool
  | .idle => false
  | .running => false
  | .halted _ => true
  | .faulted _ => true
  | .outOfFuel => true

/-- "Only the two Halted states are normal ends" (R157). -/
def RunState.normalEnd : RunState → Bool
  | .halted _ => true
  | .idle => false
  | .running => false
  | .faulted _ => false
  | .outOfFuel => false

/-- A run: the states that steps lead to (R153). -/
inductive Reaches : State → State → Prop where
  | refl (s : State) : Reaches s s
  | tail {s t u : State} (h : Reaches s t) (hstep : step t = .next u) : Reaches s u

/-- The end of the run from `s` (R157): the first state whose run state is terminal. -/
def EndsIn (s t : State) : Prop := Reaches s t ∧ t.runState.ended = true

/-- The run from `s` ends normally (R157). -/
def EndsNormally (s : State) : Prop := ∃ t, EndsIn s t ∧ t.runState.normalEnd = true

/-! ### The invariant -/

/-- The instruction at the pc is a `lw` or `sw` whose effective address is `ea`. -/
def State.accessesAt (s : State) (ea : Word) : Prop :=
  ∃ rs rt imm,
    (decodeWord s.cfg (s.mem.read s.pc.toNat) = .ok (.lw rs rt imm) ∨
      decodeWord s.cfg (s.mem.read s.pc.toNat) = .ok (.sw rs rt imm)) ∧
    ea = s.effectiveAddress rs imm

/-- What holds of every state of a run, and of every step from a state where it holds. -/
structure State.Inv (s : State) : Prop where
  /-- Memory is in its canonical form, and lists only cells of the array. -/
  memory : Memory.wf s.mem = true
  /-- The fuel counter exists exactly when FUEL is given (R158). -/
  fuelGiven : s.fuel.isSome = s.cfg.fuel.isSome
  /-- The fuel counter never exceeds FUEL (R158). -/
  fuelBound : ∀ n limit, s.fuel = some n → s.cfg.fuel = some limit → n ≤ limit
  /-- An idle core starts at TEXT_BASE with an empty log and all its fuel (10_state.md R28; R160: the pc cannot be preset). -/
  idleFresh : s.runState = .idle → s.pc = BitVec.ofNat 32 textBase ∧ s.diag = [] ∧ s.fuel = s.cfg.fuel
  /-- A core halted by the sentinel has the pc on a halt word of the text range (R154). -/
  sentinelAtPc : s.runState = .halted .sentinel →
    s.pc.toNat < staticDataBase ∧ decodeWord s.cfg (s.mem.read s.pc.toNat) = .ok .halt
  /-- A core halted by exhausting the range has its pc outside it (R155). -/
  rangeAtPc : s.runState = .halted .rangeExhausted → staticDataBase ≤ s.pc.toNat
  /-- A core that ended in MemoryRange has the pc on the load or store and the address outside the array (R243). -/
  rangeFault : ∀ ea, s.runState = .faulted (.memoryRange ea) → memWords ≤ ea.toNat ∧ s.accessesAt ea
  /-- A core that ended in a reported condition runs with RUNTIME_FATAL, and that condition at the pc is its whole log (R245). -/
  reportedFault : ∀ c, s.runState = .faulted (.reported c) → s.cfg.runtimeFatal = true ∧ s.diag = [{ pc := s.pc, condition := c }]
  /-- With RUNTIME_FATAL the log is empty until the run ends in a reported condition (R245). -/
  fatalQuiet : s.cfg.runtimeFatal = true → (∀ c, s.runState ≠ .faulted (.reported c)) → s.diag = []
  /-- A core out of fuel has a counter at zero (R158). -/
  outOfFuelAtZero : s.runState = .outOfFuel → s.fuel = some 0
  /-- Every entry of the log comes from an instruction of the text range (R155, R244). -/
  diagInRange : ∀ e ∈ s.diag, e.pc.toNat < staticDataBase
  /-- Every overflow in the log is an overflow (44_alu.md R189). -/
  diagOverflows : ∀ e ∈ s.diag, ∀ a b, e.condition = .arithmeticOverflow a b → addOverflows a b = true

/-! ### Frames -/

/-- From `s` to `t`, no register changes. -/
def SameRegs (s t : State) : Prop := ∀ k, t.readReg k = s.readReg k

/-- From `s` to `t`, register `d` holds `v` and no other register changes. -/
def OneReg (s t : State) (d : RegIdx) (v : Word) : Prop := t.readReg d = v ∧ ∀ k, k ≠ d → t.readReg k = s.readReg k

/-- From `s` to `t`, no memory word changes: every address reads as before. -/
def SameMem (s t : State) : Prop := ∀ a, t.memRead a = s.memRead a

/-- From `s` to `t`, the cell at `a` holds `v` and every other address reads as before. -/
def OneCell (s t : State) (a v : Word) : Prop := t.memRead a = some v ∧ ∀ b, b ≠ a → t.memRead b = s.memRead b

/-- From `s` to `t`, the run state, the log, the fuel counter, the parameters and the host's Load bit are unchanged. -/
def SameRest (s t : State) : Prop :=
  t.runState = s.runState ∧ t.diag = s.diag ∧ t.fuel = s.fuel ∧ t.cfg = s.cfg ∧ t.loadUsed = s.loadUsed

/-- The effect of an instruction that writes register `d` and nothing else, and goes on at the next word. -/
def WritesReg (s t : State) (d : RegIdx) (v : Word) : Prop :=
  OneReg s t d v ∧ t.pc = s.pc + 1 ∧ SameMem s t ∧ SameRest s t

/-- The effect of an instruction that sets the pc and nothing else. -/
def SetsPc (s t : State) (target : Word) : Prop := SameRegs s t ∧ t.pc = target ∧ SameMem s t ∧ SameRest s t

/-- The effect of `report c` (60_exceptions.md R244, R245): one entry in the log; no register, memory word or other state
changes, but for the pc, or, with RUNTIME_FATAL, the run state. -/
def Reports (s t : State) (c : Condition) : Prop :=
  SameRegs s t ∧ SameMem s t ∧ t.diag = s.diag ++ [{ pc := s.pc, condition := c }] ∧
  t.fuel = s.fuel ∧ t.cfg = s.cfg ∧ t.loadUsed = s.loadUsed ∧
  (s.cfg.runtimeFatal = false → t.pc = s.pc + 1 ∧ t.runState = s.runState) ∧
  (s.cfg.runtimeFatal = true → t.pc = s.pc ∧ t.runState = .faulted (.reported c))

/-- The effect of `raise MemoryRange(ea)` (60_exceptions.md R243): the run ends in that fault and nothing else changes. -/
def RaisesRange (s t : State) (ea : Word) : Prop :=
  t.runState = .faulted (.memoryRange ea) ∧ SameRegs s t ∧ SameMem s t ∧ t.pc = s.pc ∧ t.diag = s.diag ∧
  t.fuel = s.fuel ∧ t.cfg = s.cfg ∧ t.loadUsed = s.loadUsed

/-- Two states that differ at most in the diagnostic log. -/
def SameButDiag (s t : State) : Prop :=
  s.regs = t.regs ∧ s.pc = t.pc ∧ s.mem = t.mem ∧ s.runState = t.runState ∧ s.fuel = t.fuel ∧ s.cfg = t.cfg ∧
  s.loadUsed = t.loadUsed

/-- The address an instruction that redirects the pc in this state sets it to: j, jal, jr, a taken beq, a taken bne; none for
every other instruction and for an untaken branch (43_run_loop.md R156). -/
def redirectTarget (s : State) : Instr → Option Word
  | .j address => some (s.jumpTarget address)
  | .jal address => some (s.jumpTarget address)
  | .jr rs _ _ _ => some (s.readReg rs)
  | .beq rs rt imm => if s.readReg rs = s.readReg rt then some (s.branchTarget imm) else none
  | .bne rs rt imm => if s.readReg rs ≠ s.readReg rt then some (s.branchTarget imm) else none
  | .sll _ _ _ _ | .srl _ _ _ _ | .add _ _ _ _ | .addu _ _ _ _ | .sub _ _ _ _ | .subu _ _ _ _ | .and _ _ _ _ => none
  | .or _ _ _ _ | .nor _ _ _ _ | .slt _ _ _ _ | .sltu _ _ _ _ | .addi _ _ _ | .addiu _ _ _ | .slti _ _ _ => none
  | .sltiu _ _ _ | .andi _ _ _ | .ori _ _ _ | .lui _ _ _ | .lw _ _ _ | .lbu _ _ _ | .lhu _ _ _ | .sb _ _ _ => none
  | .sh _ _ _ | .sw _ _ _ | .ll _ _ _ | .sc _ _ _ | .halt => none

/-- The register an instruction can write: rd or rt as its rule says, RA for jal, none for the others (10_state.md R13). -/
def destination (cfg : Config) : Instr → Option RegIdx
  | .sll _ _ rd _ | .srl _ _ rd _ | .add _ _ rd _ | .addu _ _ rd _ | .sub _ _ rd _ | .subu _ _ rd _ => some rd
  | .and _ _ rd _ | .or _ _ rd _ | .nor _ _ rd _ | .slt _ _ rd _ | .sltu _ _ rd _ => some rd
  | .addi _ rt _ | .addiu _ rt _ | .slti _ rt _ | .sltiu _ rt _ | .andi _ rt _ | .ori _ rt _ | .lui _ rt _ | .lw _ rt _ => some rt
  | .jal _ => some cfg.ra
  | .jr _ _ _ _ | .beq _ _ _ | .bne _ _ _ | .lbu _ _ _ | .lhu _ _ _ | .sb _ _ _ | .sh _ _ _ | .sw _ _ _ => none
  | .ll _ _ _ | .sc _ _ _ | .j _ | .halt => none

end Sys2Proof.Machine
end

