-- ==== Sys2Proof/WellFormed.lean ====
section
/-!
DEFINITION. What makes an Instruction record, an instruction and a configuration well-formed (10_state.md R22, R23;
30_encoding.md R59; 92_eei_decisions.md D1, D2). Each check has an ill-formed term in Tests/Slice0.lean that it refuses.
-/

namespace Sys2Proof

/-- Every field is in the range of its width (R52 to R54). -/
def Variant.inRange : Variant → Bool
  | .register rs rt rd shamt func => rs < 32 && rt < 32 && rd < 32 && shamt < 32 && func < 64
  | .immediate rs rt imm => rs < 32 && rt < 32 && imm < 2 ^ 16
  | .jump address => address < 2 ^ 26
  | .halt => true

/-- The tag agrees with the opcode by R56: Register with 0, Jump with 2 or 3, Halt with 0x3F, Immediate with any other. -/
def Variant.agrees (opcode : Nat) : Variant → Bool
  | .register _ _ _ _ _ => opcode = 0
  | .immediate _ _ _ => opcode < 64 && opcode ≠ 0 && opcode ≠ 2 && opcode ≠ 3 && opcode ≠ 0x3F
  | .jump _ => opcode = 2 || opcode = 3
  | .halt => opcode = 0x3F

/-- `value` is re-derivable from the fields (10_state.md R23). -/
def Instruction.inSync (d : Instruction) : Bool := d.value == encode d

/-- The fields of a record are in range and its tag agrees with its opcode (the premise of the first law of R59). -/
def Instruction.fieldsOk (d : Instruction) : Bool := d.variant.inRange && d.variant.agrees d.opcode

/-- A well-formed Instruction record (R22, R23). -/
def Instruction.wellFormed (d : Instruction) : Bool := d.fieldsOk && d.inSync

/-- An instruction is well-formed when the record it stands for is. The widths of its operands are in their types, so what can
be wrong is the table: an Immediate mnemonic whose opcode is 0, 2, 3 or 0x3F. -/
def Instr.wellFormed (cfg : Config) (i : Instr) : Bool := (i.toInstruction cfg).wellFormed

/-- The table OPC is injective (decision D1). -/
def OpcTable.injective (t : OpcTable) : Bool := decide (allImmOps.map t.code).Nodup

/-- The table OPC avoids 0, 2, 3 and 0x3F (decision D1). -/
def OpcTable.avoidsFixed (t : OpcTable) : Bool :=
  allImmOps.all fun m => t.code m ≠ 0 && t.code m ≠ 2 && t.code m ≠ 3 && t.code m ≠ 0x3F

/-- The table FUNC has twelve distinct entries (decision D1). -/
def FuncTable.injective (t : FuncTable) : Bool := decide (allRegOps.map t.code).Nodup

/-- The register names are distinct, so that `reg_index (reg_name i) = i` (30_encoding.md R66; decision D2). -/
def Config.namesDistinct (cfg : Config) : Bool := decide (allRegs.map (regName cfg)).Nodup

/-- The configurations the spec allows: the constraints D1 and D2 put on a replacement table. -/
def Config.valid (cfg : Config) : Bool :=
  cfg.opc.injective && cfg.opc.avoidsFixed && cfg.func.injective && cfg.namesDistinct

end Sys2Proof
end

