-- ==== Sys2Proof/Certificates/Slice0/Obligations.lean ====
section
/-!
DEFINITION. The statements of this row: what the spec's rules say the machine, its instructions and its link agent do.
`[D<n>]` in a docstring names a decision of 92_eei_decisions.md the statement rests on: the spec's own choice, not its source's.
-/

open Sys2Proof Sys2Proof.Machine

/-! ### The codec (30_encoding.md) -/

/-- Decode and encode agree on every instruction, every operand at every value, under every table D1 allows (R59). -/
def Obligations.DecodeOfEncodeIsTheInstruction : Prop :=
  ∀ cfg : Config, cfg.valid = true → ∀ i : Instr, decodeWord cfg (encodeInstr cfg i) = .ok i

/-- The round-trip laws of Instruction records (R59, the law and the exceptions the spec derives). -/
def Obligations.RecordCodecRoundTrips : Prop :=
  (∀ d : Instruction, d.wellFormed = true → decode (encode d) = { d with label := none, symbolicOperand := none }) ∧
  (∀ w : Word, bits w 31 26 ≠ 0x3F → encode (decode w) = w) ∧
  encode (decode 0xFFFFFFFF) = 0xFFFFFFFF ∧
  (∀ w : Word, bits w 31 26 = 0x3F → w ≠ 0xFFFFFFFF → encode (decode w) ≠ w)

/-- The decoder rejects exactly the words whose operation is Undefined, and otherwise gives the operation of R67. -/
def Obligations.DecoderFollowsOperationSelection : Prop :=
  ∀ (cfg : Config) (w : Word),
    (decodeWord cfg w = .error (.undefinedEncoding w) ↔ opOf cfg (decode w) = none) ∧
    (∀ i, decodeWord cfg w = .ok i → opOf cfg (decode w) = some i.mnemonic)

/-- No bit of a word that decodes is dropped: encoding the instruction gives the word back (R57 to R59; not for halt words). -/
def Obligations.EncodeOfDecodedWordIsTheWord : Prop :=
  ∀ (cfg : Config) (w : Word) (i : Instr), decodeWord cfg w = .ok i → bits w 31 26 ≠ 0x3F → encodeInstr cfg i = w

/-- A few words of 95_test_vectors.md V1 and V3 decode as listed there (a sanity statement). -/
def Obligations.ListedWordsDecodeAsListed : Prop :=
  decodeTableWord 32 0x012A4020 = some (.add 9 10 8 0) ∧ decodeTableWord 32 0x01204100 = some (.sll 9 0 8 4) ∧
  decodeTableWord 32 0x2108FFFF = some (.addi 8 8 0xFFFF) ∧ decodeTableWord 32 0x8D280001 = some (.lw 9 8 1) ∧
  decodeTableWord 32 0x08400003 = some (.j 0x0400003) ∧ decodeTableWord 32 0x03E00008 = some (.jr 31 0 0 0) ∧
  decodeTableWord 32 0xFFFFFFFF = some .halt ∧ decodeTableWord 32 0x0000000C = none ∧ decodeTableWord 32 0x80000000 = none

/-- The register lookup tables are inverse, and a token that is no name is absent (R66). -/
def Obligations.RegisterNamesLookUpBack : Prop :=
  ∀ cfg : Config, cfg.namesDistinct = true →
    (∀ i : RegIdx, regIndex cfg (regName cfg i) = some i) ∧
    (∀ name : Text, regIndex cfg name = none ↔ ∀ i : RegIdx, regName cfg i ≠ name)

/-- The mnemonic tables are bidirectional (R65): spelling, opcode and function code look back to their mnemonic, and every other
spelling, opcode and function code is absent. Opcode 0 is shared by the Register format; that it alone names no mnemonic is the
model's choice (log 32). -/
def Obligations.MnemonicTablesAreBidirectional : Prop :=
  ∀ cfg : Config, cfg.valid = true →
    (∀ m : Mnemonic, mnemonicOf m.spelling = some m ∧ opcodeOfName cfg m.spelling = some (m.opcode cfg) ∧
      funcOfName cfg m.spelling = m.func cfg) ∧
    (∀ name : Text, (∀ m : Mnemonic, m.spelling ≠ name) →
      mnemonicOf name = none ∧ opcodeOfName cfg name = none ∧ funcOfName cfg name = none) ∧
    (∀ (c : Nat) (m : Mnemonic), mnemonicOfOpcode cfg c = some m ↔ m.func cfg = none ∧ (m.opcode cfg).toNat = c) ∧
    (∀ (c : Nat) (m : Mnemonic), mnemonicOfFunc cfg c = some m ↔ ∃ f, m.func cfg = some f ∧ f.toNat = c)

/-! ### Reset and the invariant -/

/-- What reset leaves (10_state.md R28; [D21] for the fuel counter), for every setting of the parameters, and the defaults of
00_scope.md R7 that `State.reset` takes. -/
def Obligations.ResetLeavesTheListedValues : Prop :=
  (∀ cfg : Config,
    (∀ k, (State.resetWith cfg).readReg k = 0) ∧ (State.resetWith cfg).pc = 0x00400000 ∧
    (∀ a : Word, a.toNat < 0x7FFFFFFD → (State.resetWith cfg).memRead a = some 0) ∧
    (State.resetWith cfg).runState = .idle ∧ (State.resetWith cfg).diag = [] ∧
    (State.resetWith cfg).fuel = cfg.fuel ∧ (State.resetWith cfg).cfg = cfg) ∧
  State.reset = State.resetWith Config.standard ∧ Config.standard.runtimeFatal = false ∧ Config.standard.fuel = none ∧
  Config.standard.ra = 31 ∧ Config.standard.dynEnd = 0x7FFFFFFC ∧ Config.standard.valid = true

/-- The invariant holds at reset. -/
def Obligations.ResetMeetsTheInvariant : Prop := ∀ cfg : Config, (State.resetWith cfg).Inv

/-- Every step keeps the invariant: memory in canonical form; the pc on the halt word, outside the range, or on the faulting load
or store at the matching end of a run; with RUNTIME_FATAL a log that holds at most the condition that ended the run; every logged
overflow a real one; fuel within FUEL. -/
def Obligations.StepKeepsTheInvariant : Prop := ∀ s t : State, s.Inv → step s = .next t → t.Inv

/-- Every host action keeps the invariant (43_run_loop.md R152), a failed Load too. -/
def Obligations.HostActionsKeepTheInvariant : Prop :=
  ∀ (a : HostAction) (s t : State), s.Inv → (hostAct a s = .done t ∨ ∃ e, hostAct a s = .loadFailed e t) → t.Inv

/-! ### The step (43_run_loop.md) -/

/-- A step runs the decoded instruction (R153): where the word at the pc decodes to `i`, the step is `exec i`, and then one unit
of fuel is spent if the run goes on. -/
def Obligations.StepRunsTheDecodedInstruction : Prop :=
  ∀ (s : State) (w : Word) (i : Instr), s.runState = .running → s.fuel ≠ some 0 → s.pc.toNat < 0x10000000 →
    s.memRead s.pc = some w → decodeWord s.cfg w = .ok i →
    ∃ t, exec i s = .next t ∧
      step s = .next { t with fuel := if t.runState = .running then t.fuel.map (fun n => n - 1) else t.fuel }

/-- A step on an undefined encoding reports the word and does nothing else ([D8]; R69 is the spec's own choice). -/
def Obligations.UndefinedEncodingIsReported : Prop :=
  ∀ (s : State) (w : Word), s.runState = .running → s.fuel ≠ some 0 → s.pc.toNat < 0x10000000 →
    s.memRead s.pc = some w → opOf s.cfg (decode w) = none →
    ∃ t, Reports s t (.unsupportedInstruction w) ∧
      step s = .next { t with fuel := if s.cfg.runtimeFatal then s.fuel else s.fuel.map (fun n => n - 1) }

/-- The three ends a step can come to before anything executes, with all else unchanged: no fuel (R158, [D21]); the pc at or
above STATIC_DATA_BASE (R155, [D11]); a halt word (R154, opcode 0x3F by [D3]). -/
def Obligations.RunEndsLeaveTheRestUnchanged : Prop :=
  ∀ s : State, s.runState = .running →
    (s.fuel = some 0 → step s = .next { s with runState := .outOfFuel }) ∧
    (s.fuel ≠ some 0 → 0x10000000 ≤ s.pc.toNat → step s = .next { s with runState := .halted .rangeExhausted }) ∧
    (s.fuel ≠ some 0 → s.pc.toNat < 0x10000000 → ∀ w, s.memRead s.pc = some w → bits w 31 26 = 0x3F →
      step s = .next { s with runState := .halted .sentinel })

/-- A step exists exactly for a running core: a running core always takes one, an idle or ended core none (R153; that the model
answers a fault there is its own choice, log 3). -/
def Obligations.ExactlyRunningCoresStep : Prop :=
  ∀ s : State, ((∃ t, step s = .next t) ↔ s.runState = .running) ∧ (s.runState.ended = true → step s = .fault .ended)

/-- Only a load or store whose address is outside the array ends a run in MemoryRange, and nothing else changes then
(60_exceptions.md R243 with [D10]); a fetch never does (R155). -/
def Obligations.OnlyDataAccessesRaiseMemoryRange : Prop :=
  ∀ (s t : State) (ea : Word), step s = .next t → t.runState = .faulted (.memoryRange ea) →
    t = { s with runState := .faulted (.memoryRange ea) } ∧ 0x7FFFFFFD ≤ ea.toNat ∧ s.accessesAt ea

/-- A step appends at most one entry to the log, for its own pc, and then writes no register and no memory word (60_exceptions.md
R247, R249; R244 with [D9]). -/
def Obligations.StepLogsAtMostOnceAndPrecisely : Prop :=
  ∀ s t : State, step s = .next t →
    t.diag = s.diag ∨ ∃ c, t.diag = s.diag ++ [{ pc := s.pc, condition := c }] ∧ SameRegs s t ∧ SameMem s t

/-- The log is state a program cannot observe (10_state.md R19): two machines that differ only in their logs take steps that
differ only in their logs. -/
def Obligations.LogIsNotObservable : Prop :=
  ∀ s s' : State, SameButDiag s s' →
    (∃ t t', step s = .next t ∧ step s' = .next t' ∧ SameButDiag t t') ∨
    (∃ r, step s = .fault r ∧ step s' = .fault r)

/-- No step changes a parameter or the host's Load bit (60_exceptions.md R245, [D9]). -/
def Obligations.StepKeepsTheParameters : Prop :=
  ∀ s t : State, step s = .next t → t.cfg = s.cfg ∧ t.loadUsed = s.loadUsed

/-- With FUEL every run ends (43_run_loop.md R158, [D21]). -/
def Obligations.FuelEndsEveryRun : Prop :=
  ∀ (n : Nat) (s : State), s.runState = .running → s.fuel = some n → ∃ t, EndsIn s t

/-- The word a store puts at the next pc is what the next step executes (20_memory.md R42, R275, which the spec derives). -/
def Obligations.StoreToTheNextPcIsExecuted : Prop :=
  ∀ (s t : State) (rs rt : RegIdx) (imm : Imm16), s.Inv → s.runState = .running → s.fuel ≠ some 0 →
    s.fuel ≠ some 1 → s.pc.toNat + 1 < 0x10000000 →
    decodeWord s.cfg (s.mem.read s.pc.toNat) = .ok (.sw rs rt imm) → s.effectiveAddress rs imm = s.pc + 1 →
    step s = .next t →
    t.pc = s.pc + 1 ∧ t.memRead t.pc = some (s.readReg rt) ∧ step t = afterExec (execWord (s.readReg rt) t)

/-! ### Whole-machine rules over all instructions -/

/-- The pc update rule (43_run_loop.md R156): if the run goes on, the pc is what the instruction set it to, where it redirected
the pc, and the next word otherwise (an untaken branch and an instruction that reports included). -/
def Obligations.PcAdvancesUnlessRedirected : Prop :=
  ∀ (i : Instr) (s t : State), s.runState = .running → exec i s = .next t → t.runState = .running →
    t.pc = (redirectTarget s i).getD (s.pc + 1)

/-- The frame of every instruction on the registers, memory and the rest: only its destination register changes; only `sw`
changes memory, and only the cell at its effective address; no instruction changes the fuel counter or the parameters (10_state.md R13; 20_memory.md R38; R253). -/
def Obligations.EveryInstructionKeepsItsFrame : Prop :=
  ∀ (i : Instr) (s t : State), exec i s = .next t →
    (∀ k, destination s.cfg i ≠ some k → t.readReg k = s.readReg k) ∧
    ((∀ rs rt imm, i ≠ .sw rs rt imm) → SameMem s t) ∧
    (∀ rs rt imm, i = .sw rs rt imm → ∀ a, a ≠ s.effectiveAddress rs imm → t.memRead a = s.memRead a) ∧
    t.fuel = s.fuel ∧ t.cfg = s.cfg ∧ t.loadUsed = s.loadUsed

/-- A field an operation does not use has no effect on execution (30_encoding.md R68, [D7]). -/
def Obligations.IgnoredFieldsHaveNoEffect : Prop := ∀ (i : Instr) (s : State), exec i s = exec i.clearIgnored s

/-! ### Arithmetic, logic, comparison, shifts (44_alu.md) -/

/-- The overflow predicate (44_alu.md R189) and its use (60_exceptions.md R241): it is the test on the three signs; it holds
exactly when the exact sum lies outside -2^31 .. 2^31-1; `add` and `addi` report an ArithmeticOverflow with the pc and the two
operands where it holds (for `addi` of the sign-extended immediate), and no other instruction and no other operands do. -/
def Obligations.OverflowComesFromAddAndAddiOnly : Prop :=
  (∀ a b : Word, addOverflows a b = true ↔
    (a.getLsbD 31 = b.getLsbD 31 ∧ (a + b).getLsbD 31 ≠ a.getLsbD 31)) ∧
  (∀ a b : Word, addOverflows a b = true ↔ (a.toInt + b.toInt < -2147483648 ∨ 2147483647 < a.toInt + b.toInt)) ∧
  (∀ (s : State) (rs rt rd : RegIdx) (sh : Shamt), addOverflows (s.readReg rs) (s.readReg rt) = true →
    ∃ t, exec (.add rs rt rd sh) s = .next t ∧
      t.diag = s.diag ++ [{ pc := s.pc, condition := .arithmeticOverflow (s.readReg rs) (s.readReg rt) }]) ∧
  (∀ (s : State) (rs rt : RegIdx) (imm : Imm16), addOverflows (s.readReg rs) (imm.signExtend 32) = true →
    ∃ t, exec (.addi rs rt imm) s = .next t ∧
      t.diag = s.diag ++ [{ pc := s.pc, condition := .arithmeticOverflow (s.readReg rs) (imm.signExtend 32) }]) ∧
  (∀ (i : Instr) (s t : State) (e : DiagEntry) (a b : Word), exec i s = .next t → t.diag = s.diag ++ [e] →
    e.condition = .arithmeticOverflow a b →
    e.pc = s.pc ∧ addOverflows a b = true ∧
    ((∃ rs rt rd sh, i = .add rs rt rd sh ∧ a = s.readReg rs ∧ b = s.readReg rt) ∨
      (∃ rs rt imm, i = .addi rs rt imm ∧ a = s.readReg rs ∧ b = imm.signExtend 32)))

/-- `add` (44_alu.md R170): the sum, if the exact sum is in range; otherwise the overflow is reported and no register is written
([D9]). -/
def Obligations.AddWritesTheSumOrReportsOverflow : Prop :=
  ∀ (s : State) (rs rt rd : RegIdx) (sh : Shamt),
    (-2147483648 ≤ (s.readReg rs).toInt + (s.readReg rt).toInt ∧ (s.readReg rs).toInt + (s.readReg rt).toInt ≤ 2147483647 →
      ∃ t v, exec (.add rs rt rd sh) s = .next t ∧ WritesReg s t rd v ∧ v.toInt = (s.readReg rs).toInt + (s.readReg rt).toInt) ∧
    (¬ (-2147483648 ≤ (s.readReg rs).toInt + (s.readReg rt).toInt ∧ (s.readReg rs).toInt + (s.readReg rt).toInt ≤ 2147483647) →
      ∃ t, exec (.add rs rt rd sh) s = .next t ∧ Reports s t (.arithmeticOverflow (s.readReg rs) (s.readReg rt)))

/-- `addi` (44_alu.md R172): the sum with the sign-extended immediate, or the reported overflow ([D9]). -/
def Obligations.AddiWritesTheSumOrReportsOverflow : Prop :=
  ∀ (s : State) (rs rt : RegIdx) (imm : Imm16),
    (-2147483648 ≤ (s.readReg rs).toInt + imm.toInt ∧ (s.readReg rs).toInt + imm.toInt ≤ 2147483647 →
      ∃ t v, exec (.addi rs rt imm) s = .next t ∧ WritesReg s t rt v ∧ v.toInt = (s.readReg rs).toInt + imm.toInt) ∧
    (¬ (-2147483648 ≤ (s.readReg rs).toInt + imm.toInt ∧ (s.readReg rs).toInt + imm.toInt ≤ 2147483647) →
      ∃ t, exec (.addi rs rt imm) s = .next t ∧
        Reports s t (.arithmeticOverflow (s.readReg rs) (BitVec.ofInt 32 imm.toInt)))

/-- `addu`, `sub`, `subu` (44_alu.md R171, R185, R186): modulo 2^32, no condition. -/
def Obligations.AdduSubSubuWrapModulo : Prop :=
  ∀ (s : State) (rs rt rd : RegIdx) (sh : Shamt),
    (∃ t, exec (.addu rs rt rd sh) s = .next t ∧
      WritesReg s t rd (BitVec.ofNat 32 ((s.readReg rs).toNat + (s.readReg rt).toNat))) ∧
    (∃ t, exec (.sub rs rt rd sh) s = .next t ∧
      WritesReg s t rd (BitVec.ofInt 32 ((s.readReg rs).toInt - (s.readReg rt).toInt))) ∧
    (∃ t, exec (.subu rs rt rd sh) s = .next t ∧
      WritesReg s t rd (BitVec.ofInt 32 ((s.readReg rs).toInt - (s.readReg rt).toInt)))

/-- `and`, `or`, `nor` (44_alu.md R174, R175, R176), bit by bit. -/
def Obligations.AndOrNorActBitwise : Prop :=
  ∀ (s : State) (rs rt rd : RegIdx) (sh : Shamt),
    (∃ t v, exec (.and rs rt rd sh) s = .next t ∧ WritesReg s t rd v ∧
      ∀ k, k < 32 → v.getLsbD k = ((s.readReg rs).getLsbD k && (s.readReg rt).getLsbD k)) ∧
    (∃ t v, exec (.or rs rt rd sh) s = .next t ∧ WritesReg s t rd v ∧
      ∀ k, k < 32 → v.getLsbD k = ((s.readReg rs).getLsbD k || (s.readReg rt).getLsbD k)) ∧
    (∃ t v, exec (.nor rs rt rd sh) s = .next t ∧ WritesReg s t rd v ∧
      ∀ k, k < 32 → v.getLsbD k = !((s.readReg rs).getLsbD k || (s.readReg rt).getLsbD k))

/-- `slt` and `sltu` (44_alu.md R179, R181): 1 or 0 by the signed and the unsigned comparison. -/
def Obligations.SltAndSltuCompare : Prop :=
  ∀ (s : State) (rs rt rd : RegIdx) (sh : Shamt),
    (∃ t, exec (.slt rs rt rd sh) s = .next t ∧
      WritesReg s t rd (if (s.readReg rs).toInt < (s.readReg rt).toInt then 1 else 0)) ∧
    (∃ t, exec (.sltu rs rt rd sh) s = .next t ∧
      WritesReg s t rd (if (s.readReg rs).toNat < (s.readReg rt).toNat then 1 else 0))

/-- `addiu`, `slti`, `sltiu` (44_alu.md R173, R180, R182): the immediate is sign-extended, for `sltiu` too, which then compares
unsigned ([D5]). -/
def Obligations.AddiuSltiSltiuSignExtend : Prop :=
  ∀ (s : State) (rs rt : RegIdx) (imm : Imm16),
    (∃ t, exec (.addiu rs rt imm) s = .next t ∧ WritesReg s t rt (BitVec.ofInt 32 ((s.readReg rs).toInt + imm.toInt))) ∧
    (∃ t, exec (.slti rs rt imm) s = .next t ∧ WritesReg s t rt (if (s.readReg rs).toInt < imm.toInt then 1 else 0)) ∧
    (∃ t, exec (.sltiu rs rt imm) s = .next t ∧
      WritesReg s t rt (if ((s.readReg rs).toNat : Int) < imm.toInt % 4294967296 then 1 else 0))

/-- `andi`, `ori` (44_alu.md R177, R178): the immediate is zero-extended ([D5]). -/
def Obligations.AndiOriZeroExtend : Prop :=
  ∀ (s : State) (rs rt : RegIdx) (imm : Imm16),
    (∃ t v, exec (.andi rs rt imm) s = .next t ∧ WritesReg s t rt v ∧
      ∀ k, k < 32 → v.getLsbD k = (decide (k < 16) && (s.readReg rs).getLsbD k && imm.getLsbD k)) ∧
    (∃ t v, exec (.ori rs rt imm) s = .next t ∧ WritesReg s t rt v ∧
      ∀ k, k < 32 → v.getLsbD k = ((s.readReg rs).getLsbD k || (decide (k < 16) && imm.getLsbD k)))

/-- `lui` (44_alu.md R187): the immediate in bits 31:16, zeros below; the rs field is ignored. -/
def Obligations.LuiFillsTheUpperHalf : Prop :=
  ∀ (s : State) (rs rt : RegIdx) (imm : Imm16),
    ∃ t, exec (.lui rs rt imm) s = .next t ∧ WritesReg s t rt (BitVec.ofNat 32 (imm.toNat * 65536))

/-- `sll`, `srl` (44_alu.md R183, R184): a logical shift of the register of the rs field ([D6]) by shamt. -/
def Obligations.ShiftsAreLogical : Prop :=
  ∀ (s : State) (rs rt rd : RegIdx) (sh : Shamt),
    (∃ t, exec (.sll rs rt rd sh) s = .next t ∧
      WritesReg s t rd (BitVec.ofNat 32 ((s.readReg rs).toNat * 2 ^ sh.toNat))) ∧
    (∃ t, exec (.srl rs rt rd sh) s = .next t ∧
      WritesReg s t rd (BitVec.ofNat 32 ((s.readReg rs).toNat / 2 ^ sh.toNat)))

/-- Register 0 is written like any other (10_state.md R11, [D4]): an instruction that names it as destination changes it. -/
def Obligations.RegisterZeroIsWritable : Prop :=
  ∀ (s : State) (rs : RegIdx) (imm : Imm16),
    ∃ t, exec (.addiu rs 0 imm) s = .next t ∧ t.readReg 0 = BitVec.ofInt 32 ((s.readReg rs).toInt + imm.toInt)

/-! ### Loads and stores (45_memory_ops.md) -/

/-- `lw` (45_memory_ops.md R200, R201; [D5] for the offset, [D10] outside the array): inside the array the word at base plus
offset modulo 2^32 is loaded; outside it MemoryRange is raised and nothing is written. -/
def Obligations.LwLoadsOrRaisesMemoryRange : Prop :=
  ∀ (s : State) (rs rt : RegIdx) (imm : Imm16) (ea : Word), ea = BitVec.ofInt 32 ((s.readReg rs).toInt + imm.toInt) →
    (ea.toNat < 0x7FFFFFFD → ∃ t v, exec (.lw rs rt imm) s = .next t ∧ s.memRead ea = some v ∧ WritesReg s t rt v) ∧
    (0x7FFFFFFD ≤ ea.toNat → ∃ t, exec (.lw rs rt imm) s = .next t ∧ RaisesRange s t ea)

/-- `sw` (45_memory_ops.md R200, R202; [D5] for the offset, [D10] outside the array): inside the array the cell at the address
gets the register and every other cell and register stays; outside it MemoryRange is raised and nothing is written. -/
def Obligations.SwStoresOrRaisesMemoryRange : Prop :=
  ∀ (s : State) (rs rt : RegIdx) (imm : Imm16) (ea : Word), Memory.wf s.mem = true →
    ea = BitVec.ofInt 32 ((s.readReg rs).toInt + imm.toInt) →
    (ea.toNat < 0x7FFFFFFD → ∃ t, exec (.sw rs rt imm) s = .next t ∧ OneCell s t ea (s.readReg rt) ∧ SameRegs s t ∧
      t.pc = s.pc + 1 ∧ SameRest s t) ∧
    (0x7FFFFFFD ≤ ea.toNat → ∃ t, exec (.sw rs rt imm) s = .next t ∧ RaisesRange s t ea)

/-- The six unimplemented instructions (45_memory_ops.md R203 to R208): the word is reported, and nothing else happens, whatever
the address would be ([D9] for the report's effect). -/
def Obligations.UnimplementedInstructionsReport : Prop :=
  ∀ (s : State) (i : Instr) (rs rt : RegIdx) (imm : Imm16),
    i = .lbu rs rt imm ∨ i = .lhu rs rt imm ∨ i = .sb rs rt imm ∨ i = .sh rs rt imm ∨ i = .ll rs rt imm ∨ i = .sc rs rt imm →
    ∃ t, exec i s = .next t ∧ Reports s t (.unsupportedInstruction (encodeInstr s.cfg i))

/-- The word an unimplemented instruction reports is the word that was fetched (60_exceptions.md R242). -/
def Obligations.ReportedWordIsTheFetchedWord : Prop :=
  ∀ (s t : State) (w v : Word) (p : Word), step s = .next t → s.memRead s.pc = some w →
    t.diag = s.diag ++ [{ pc := p, condition := .unsupportedInstruction v }] → v = w ∧ p = s.pc

/-- A read after a write (20_memory.md R34, R35), and a write keeps the memory's canonical form; outside the array neither exists
([D10]). -/
def Obligations.MemoryReadsBackWhatWasWritten : Prop :=
  ∀ (s : State) (a v : Word), Memory.wf s.mem = true →
    (a.toNat < 0x7FFFFFFD → ∃ t, s.memWrite a v = some t ∧ OneCell s t a v ∧ Memory.wf t.mem = true) ∧
    (0x7FFFFFFD ≤ a.toNat → s.memWrite a v = none ∧ s.memRead a = none)

/-- Two memories in canonical form that read alike at every cell are equal data. -/
def Obligations.CanonicalMemoryIsDeterminedByItsReads : Prop :=
  ∀ m n : Memory, Memory.wf m = true → Memory.wf n = true → (∀ a, a < 0x7FFFFFFD → m.read a = n.read a) → m = n

/-! ### Branches, jumps, halt (46_control_transfer.md) -/

/-- `beq` and `bne` (46_control_transfer.md R216, R217): taken, the pc is the next instruction's plus the signed offset in words,
modulo 2^32; untaken, the next instruction's; nothing else changes. -/
def Obligations.BranchesAreRelativeToTheNextWord : Prop :=
  ∀ (s : State) (rs rt : RegIdx) (imm : Imm16),
    (∃ t, exec (.beq rs rt imm) s = .next t ∧
      SetsPc s t (if s.readReg rs = s.readReg rt then BitVec.ofInt 32 ((s.pc.toNat : Int) + 1 + imm.toInt) else s.pc + 1)) ∧
    (∃ t, exec (.bne rs rt imm) s = .next t ∧
      SetsPc s t (if s.readReg rs = s.readReg rt then s.pc + 1 else BitVec.ofInt 32 ((s.pc.toNat : Int) + 1 + imm.toInt)))

/-- `j` (46_control_transfer.md R218; [D12]: the segment is that of the jump's own address). -/
def Obligations.JumpStaysInItsSegment : Prop :=
  ∀ (s : State) (address : Addr26),
    ∃ t, exec (.j address) s = .next t ∧ SetsPc s t (BitVec.ofNat 32 (s.pc.toNat / 2 ^ 26 * 2 ^ 26 + address.toNat))

/-- `jal` (46_control_transfer.md R219; [D12], and [D2] for the index RA): the link register gets the next instruction's address. -/
def Obligations.JalLinksAndJumps : Prop :=
  ∀ (s : State) (address : Addr26),
    ∃ t, exec (.jal address) s = .next t ∧ OneReg s t s.cfg.ra (s.pc + 1) ∧
      t.pc = BitVec.ofNat 32 (s.pc.toNat / 2 ^ 26 * 2 ^ 26 + address.toNat) ∧ SameMem s t ∧ SameRest s t

/-- `jr` (46_control_transfer.md R220): all 32 bits of the register become the pc; nothing else changes. -/
def Obligations.JrJumpsToTheRegister : Prop :=
  ∀ (s : State) (rs rt rd : RegIdx) (sh : Shamt), ∃ t, exec (.jr rs rt rd sh) s = .next t ∧ SetsPc s t (s.readReg rs)

/-- A call returns (46_control_transfer.md R219, [D12]): `jr` through RA, in any later state that still holds the link, goes to
the instruction after the `jal`. -/
def Obligations.JrThroughTheLinkReturns : Prop :=
  ∀ (s t u : State) (address : Addr26) (rt rd : RegIdx) (sh : Shamt), exec (.jal address) s = .next t →
    u.readReg s.cfg.ra = t.readReg s.cfg.ra → ∃ v, exec (.jr s.cfg.ra rt rd sh) u = .next v ∧ v.pc = s.pc + 1 ∧ SameRegs u v

/-- `halt` (46_control_transfer.md R221): the run halts by the sentinel; pc, registers, memory and log are unchanged. -/
def Obligations.HaltChangesTheRunStateOnly : Prop :=
  ∀ s : State, exec .halt s = .next { s with runState := .halted .sentinel }

/-! ### The link agent (40 to 42) -/

/-- A comma and a space separate tokens alike (40_assembler_syntax.md R91), before and after the colon: an instruction body gives the
same record with every comma replaced by a space, and a text line the same label, with the commas of its body replaced. -/
def Obligations.CommasAndSpacesParseAlike : Prop :=
  (∀ (cfg : Config) (body : Text), parseBody cfg (body.map fun c => if c = ',' then ' ' else c) = parseBody cfg body) ∧
  (∀ (line body : Text) (label : Option Text), splitLabel line = .ok (label, body) →
    splitLabel (line.map fun c => if c = ',' then ' ' else c) = .ok (label, body.map fun c => if c = ',' then ' ' else c))

/-- Every instruction of a parsed Protogram is well-formed, its value in step with its fields (R94; 10_state.md R23). -/
def Obligations.ParsedInstructionsAreWellFormed : Prop :=
  ∀ (cfg : Config) (lines : List Text) (p : Protogram), cfg.valid = true → parse cfg lines = .ok p →
    ∀ d ∈ p.instrs, d.wellFormed = true

/-- The three-register statements (R95): `op rd, rs, rt` gives the record of that instruction, whose word decodes back to it. -/
def Obligations.ThreeRegisterStatementsMeanTheirInstruction : Prop :=
  ∀ (cfg : Config) (op : RegOp) (rs rt rd : RegIdx), cfg.valid = true → op ≠ .sll → op ≠ .srl → op ≠ .jr →
    ∃ d, parseTokens cfg [op.spelling, regName cfg rd, regName cfg rs, regName cfg rt] = .ok d ∧
      d = (Instr.ofRegister rs rt rd 0 op).toInstruction cfg ∧
      decodeWord cfg d.value = .ok (Instr.ofRegister rs rt rd 0 op)

/-- Label addresses (41_symbol_table.md R121, R122): a text label maps to TEXT_BASE plus its instruction's index, a data label to
STATIC_DATA_BASE plus the words of the preceding elements. -/
def Obligations.LabelsMapToTheirAddresses : Prop :=
  ∀ (p : Protogram) (t : SymbolTable), buildTable p = .ok t →
    (∀ (i : Nat) (d : Instruction) (name : Text), p.instrs[i]? = some d → d.label = some name → lookupSymbol t name = some (BitVec.ofNat 32 (0x00400000 + i))) ∧
    (∀ (k : Nat) (d : StaticData), p.data[k]? = some d →
      lookupSymbol t d.label =
        some (BitVec.ofNat 32 (0x10000000 + ((p.data.take k).map fun e => e.words.length).sum)))

/-- A link table exists exactly when no label is defined twice (41_symbol_table.md R125, [D14]). -/
def Obligations.TableExistsUnlessLabelsRepeat : Prop :=
  ∀ p : Protogram,
    (∃ t, buildTable p = .ok t) ↔ (p.instrs.filterMap (fun d => d.label) ++ p.data.map (fun d => d.label)).Nodup

/-- The link fails with the undefined label of the lowest instruction index (42_linker.md R131, [D23]), and only so. -/
def Obligations.LinkFailsAtTheFirstUndefinedLabel : Prop :=
  ∀ (cfg : Config) (p : Protogram) (t : SymbolTable) (e : LinkError), linkProtogram cfg p t = .error e ↔
    ∃ (i : Nat) (d : Instruction) (name : Text), p.instrs[i]? = some d ∧ d.symbolicOperand = some name ∧ Variant.relocates d.variant = true ∧
      lookupSymbol t name = none ∧ e = .undefinedLabel name ∧
      ∀ (j : Nat) (d' : Instruction) (name' : Text), j < i → p.instrs[j]? = some d' → d'.symbolicOperand = some name' → Variant.relocates d'.variant = true →
        lookupSymbol t name' ≠ none

/-- The branch offset law (42_linker.md R132 with 46_control_transfer.md R216): where the offset fits its field ([D13]), the linked
immediate is target - (TEXT_BASE + 1 + index), opcode, registers and label stay (R135), and the branch, taken, lands exactly on its
target. -/
def Obligations.LinkedBranchLandsOnItsLabel : Prop :=
  ∀ (cfg : Config) (tab : SymbolTable) (i : Nat) (d : Instruction) (rs rt f : Nat) (name : Text) (target : Word),
    d.variant = .immediate rs rt f → isBranch cfg d = true → d.symbolicOperand = some name →
    lookupSymbol tab name = some target →
    -32768 ≤ (target.toNat : Int) - (0x00400000 + 1 + (i : Int)) → (target.toNat : Int) - (0x00400000 + 1 + (i : Int)) ≤ 32767 →
    ∃ (d' : Instruction) (imm : Imm16), relocate cfg tab i d = .ok d' ∧ d'.variant = .immediate rs rt imm.toNat ∧
      imm.toInt = (target.toNat : Int) - (0x00400000 + 1 + (i : Int)) ∧
      d'.opcode = d.opcode ∧ d'.label = d.label ∧ d'.symbolicOperand = none ∧ d'.value = encode d' ∧
      ∀ (s : State) (a b : RegIdx), s.pc = BitVec.ofNat 32 (0x00400000 + i) →
        (s.readReg a = s.readReg b → ∃ t, exec (.beq a b imm) s = .next t ∧ t.pc = target) ∧
        (s.readReg a ≠ s.readReg b → ∃ t, exec (.bne a b imm) s = .next t ∧ t.pc = target)

/-- Jump relocation (42_linker.md R134, [D13]) and the segment-relative jump (R218, [D12]): a symbolic jump whose label lies in its
own segment keeps its opcode and label (R135) and reaches its label. -/
def Obligations.LinkedJumpReachesItsLabel : Prop :=
  ∀ (cfg : Config) (tab : SymbolTable) (i : Nat) (d : Instruction) (f : Nat) (name : Text) (target : Word),
    d.variant = .jump f → d.symbolicOperand = some name → lookupSymbol tab name = some target →
    target.toNat / 2 ^ 26 = (0x00400000 + i) / 2 ^ 26 % 64 →
    ∃ (d' : Instruction) (address : Addr26), relocate cfg tab i d = .ok d' ∧ d'.variant = .jump address.toNat ∧
      d'.opcode = d.opcode ∧ d'.label = d.label ∧ d'.symbolicOperand = none ∧ d'.value = encode d' ∧
      ∀ s : State, s.pc = BitVec.ofNat 32 (0x00400000 + i) → ∃ t, exec (.j address) s = .next t ∧ t.pc = target

/-- Linking (42_linker.md R133, R135 to R137, R141; [D13]): each instruction of the result is the relocated one of its index, no
Immediate or Jump record keeps a symbolic operand, well-formed instructions stay so, and the Program is the values in order and the
concatenated data words. A symbolic non-branch Immediate record gets the low 16 bits of its symbol's address, and nothing else of it
but the value changes. -/
def Obligations.LinkedInstructionsAreResolvedAndInSync : Prop :=
  (∀ (cfg : Config) (p q : Protogram) (t : SymbolTable), linkProtogram cfg p t = .ok q →
    q.data = p.data ∧ q.instrs.length = p.instrs.length ∧
    (∀ (i : Nat) (d : Instruction), p.instrs[i]? = some d → ∃ d', q.instrs[i]? = some d' ∧ relocate cfg t i d = .ok d') ∧
    (∀ d ∈ q.instrs, Variant.relocates d.variant = true → d.symbolicOperand = none) ∧
    ((∀ d ∈ p.instrs, d.wellFormed = true) → ∀ d ∈ q.instrs, d.wellFormed = true) ∧
    link cfg p t = .ok { bin := q.instrs.map (fun d => d.value), staticData := (p.data.map fun e => e.words).flatten }) ∧
  (∀ (cfg : Config) (t : SymbolTable) (i : Nat) (d : Instruction) (rs rt f : Nat) (name : Text) (target : Word),
    d.variant = .immediate rs rt f → isBranch cfg d = false → d.symbolicOperand = some name → lookupSymbol t name = some target →
    ∃ d', relocate cfg t i d = .ok d' ∧ d'.variant = .immediate rs rt (target.toNat % 65536) ∧ d'.opcode = d.opcode ∧
      d'.label = d.label ∧ d'.symbolicOperand = none ∧ d'.value = encode d')

/-- Idempotent relink (42_linker.md R138): without symbolic operands linking is a no-op under any table, the empty one too; and
what has been linked links to itself. -/
def Obligations.RelinkChangesNothing : Prop :=
  (∀ (cfg : Config) (p : Protogram) (t : SymbolTable), (∀ d ∈ p.instrs, d.symbolicOperand = none) →
    linkProtogram cfg p t = .ok p ∧ ∃ q, link cfg p t = .ok q ∧ q.bin = p.instrs.map (fun d => d.value)) ∧
  (∀ (cfg : Config) (p q : Protogram) (t t' : SymbolTable), linkProtogram cfg p t = .ok q → linkProtogram cfg q t' = .ok q)

/-! ### Load and the host (43_run_loop.md) -/

/-- Load (43_run_loop.md R150): the two segments stand at their base addresses, every other word, the registers, the pc, the run
state and the log are as before. -/
def Obligations.LoadPlacesTheTwoSegments : Prop :=
  ∀ (s : State) (p : Program), Memory.wf s.mem = true → loadCheck p = none →
    ∃ t, s.loadProgram p = .ok t ∧
      (∀ i w, p.bin[i]? = some w → t.memRead (BitVec.ofNat 32 (0x00400000 + i)) = some w) ∧
      (∀ k w, p.staticData[k]? = some w → t.memRead (BitVec.ofNat 32 (0x10000000 + k)) = some w) ∧
      (∀ a : Word, ¬ (0x00400000 ≤ a.toNat ∧ a.toNat < 0x00400000 + p.bin.length) →
        ¬ (0x10000000 ≤ a.toNat ∧ a.toNat < 0x10000000 + p.staticData.length) → t.memRead a = s.memRead a) ∧
      SameRegs s t ∧ t.pc = s.pc ∧ SameRest s t

/-- The load checks (43_run_loop.md R151, [D16]): the program's length first, then the data's; lengths equal to the thresholds
pass; on an error there is no new memory. -/
def Obligations.LoadChecksAreOrderedAndExact : Prop :=
  ∀ (s : State) (p : Program),
    (0x0FC00000 < p.bin.length → s.loadProgram p = .error (.programTooLarge 0x00400000 p.bin.length)) ∧
    (p.bin.length ≤ 0x0FC00000 → 0x8000 < p.staticData.length →
      s.loadProgram p = .error (.dataTooLarge 0x10000000 p.staticData.length)) ∧
    (p.bin.length ≤ 0x0FC00000 → p.staticData.length ≤ 0x8000 → ∃ t, s.loadProgram p = .ok t)

/-- The host acts on an idle core only, but for Reset, which leaves terminal states too, and on a running core not at all
(43_run_loop.md R152, R160; 00_scope.md R3; [D21]): SetReg writes that register and nothing else; Run starts the run and changes
nothing else; the first Load gives the loaded state, or its load error with nothing changed, and uses the model's Load bit up (log
16); a second Load is refused. -/
def Obligations.HostActsOnIdleCoresOnly : Prop :=
  ∀ s : State,
    (s.runState = .running → ∀ a, hostAct a s = .refused .running) ∧
    (s.runState ≠ .running → hostAct .reset s = .done (State.resetWith s.cfg)) ∧
    (s.runState.ended = true → ∀ a, a ≠ .reset → hostAct a s = .refused .notIdle) ∧
    (s.runState = .idle →
      (∀ i v, ∃ t, hostAct (.setReg i v) s = .done t ∧ OneReg s t i v ∧ t.pc = s.pc ∧ SameMem s t ∧ SameRest s t) ∧
      hostAct .run s = .done { s with runState := .running } ∧
      (∀ p, s.loadUsed = false → loadCheck p = none →
        ∃ t, s.loadProgram p = .ok t ∧ hostAct (.load p) s = .done { t with loadUsed := true }) ∧
      (∀ p e, s.loadUsed = false → loadCheck p = some e → hostAct (.load p) s = .loadFailed e { s with loadUsed := true }) ∧
      (∀ p, s.loadUsed = true → hostAct (.load p) s = .refused .secondLoad))
end

