-- ==== Sys2Proof/Laws/Codec.lean ====
section
/-!
SUPPORT. The arithmetic of the codec: bit fields as quotients and remainders, the fields of an encoded word, and the reverse
tables.
-/

namespace Sys2Proof

/-- A bit field is a quotient and a remainder (30_encoding.md R51). -/
theorem bits_eq_div_mod (w : Word) (high low : Nat) : bits w high low = w.toNat / 2 ^ low % 2 ^ (high - low + 1) := by
  unfold bits
  rw [Nat.and_two_pow_sub_one_eq_mod, Nat.shiftRight_eq_div_pow]

theorem bits_lt (w : Word) (high low : Nat) : bits w high low < 2 ^ (high - low + 1) := by
  rw [bits_eq_div_mod]; exact Nat.mod_lt _ (Nat.two_pow_pos _)

/-- The value of a word from its fields in the Register layout (30_encoding.md R52). -/
theorem toNat_register_fields (w : Word) :
    w.toNat = bits w 31 26 * 2 ^ 26 + bits w 25 21 * 2 ^ 21 + bits w 20 16 * 2 ^ 16 + bits w 15 11 * 2 ^ 11
      + bits w 10 6 * 2 ^ 6 + bits w 5 0 := by
  have := w.isLt
  simp only [bits_eq_div_mod]; omega

/-- The value of a word from its fields in the Immediate layout (30_encoding.md R53). -/
theorem toNat_immediate_fields (w : Word) :
    w.toNat = bits w 31 26 * 2 ^ 26 + bits w 25 21 * 2 ^ 21 + bits w 20 16 * 2 ^ 16 + bits w 15 0 := by
  have := w.isLt
  simp only [bits_eq_div_mod]; omega

/-- The value of a word from its fields in the Jump layout (30_encoding.md R54). -/
theorem toNat_jump_fields (w : Word) : w.toNat = bits w 31 26 * 2 ^ 26 + bits w 25 0 := by
  have := w.isLt
  simp only [bits_eq_div_mod]; omega

/-- The fields of an encoded Register record in range (30_encoding.md R58). -/
theorem bits_encode_register {op rs rt rd sh fn : Nat} (h0 : op < 64) (h1 : rs < 32) (h2 : rt < 32) (h3 : rd < 32)
    (h4 : sh < 32) (h5 : fn < 64) :
    bits (encodeVariant op (.register rs rt rd sh fn)) 31 26 = op ∧
    bits (encodeVariant op (.register rs rt rd sh fn)) 25 21 = rs ∧
    bits (encodeVariant op (.register rs rt rd sh fn)) 20 16 = rt ∧
    bits (encodeVariant op (.register rs rt rd sh fn)) 15 11 = rd ∧
    bits (encodeVariant op (.register rs rt rd sh fn)) 10 6 = sh ∧
    bits (encodeVariant op (.register rs rt rd sh fn)) 5 0 = fn := by
  simp only [encodeVariant, bits_eq_div_mod, BitVec.toNat_ofNat]
  omega

/-- The fields of an encoded Immediate record in range (30_encoding.md R58). -/
theorem bits_encode_immediate {op rs rt imm : Nat} (h0 : op < 64) (h1 : rs < 32) (h2 : rt < 32) (h3 : imm < 2 ^ 16) :
    bits (encodeVariant op (.immediate rs rt imm)) 31 26 = op ∧ bits (encodeVariant op (.immediate rs rt imm)) 25 21 = rs ∧
    bits (encodeVariant op (.immediate rs rt imm)) 20 16 = rt ∧ bits (encodeVariant op (.immediate rs rt imm)) 15 0 = imm := by
  simp only [encodeVariant, bits_eq_div_mod, BitVec.toNat_ofNat]
  omega

/-- The fields of an encoded Jump record in range (30_encoding.md R58). -/
theorem bits_encode_jump {op address : Nat} (h0 : op < 64) (h1 : address < 2 ^ 26) :
    bits (encodeVariant op (.jump address)) 31 26 = op ∧ bits (encodeVariant op (.jump address)) 25 0 = address := by
  simp only [encodeVariant, bits_eq_div_mod, BitVec.toNat_ofNat]
  omega

/-- The two Jump-format operations look back from their opcodes (30_encoding.md R65, R67). -/
@[simp] theorem JumpOp.ofOpcode_opcode (cfg : Config) (op : JumpOp) :
    JumpOp.ofOpcode ((Mnemonic.jump op).opcode cfg).toNat = some op := by cases op <;> rfl

theorem mem_allRegOps (m : RegOp) : m ∈ allRegOps := by cases m <;> decide

theorem mem_allImmOps (m : ImmOp) : m ∈ allImmOps := by cases m <;> decide

/-- What the reverse table FUNC finds has that code. -/
theorem FuncTable.code_of_opOf {t : FuncTable} {c : Nat} {m : RegOp} (h : t.opOf c = some m) : (t.code m).toNat = c := by
  have := List.find?_some h
  simpa using this

/-- What the reverse table OPC finds has that code. -/
theorem OpcTable.code_of_opOf {t : OpcTable} {c : Nat} {m : ImmOp} (h : t.opOf c = some m) : (t.code m).toNat = c := by
  have := List.find?_some h
  simpa using this

/-- With an injective table FUNC the reverse table finds every mnemonic by its code. -/
theorem FuncTable.opOf_code {t : FuncTable} (h : t.injective = true) (m : RegOp) : t.opOf (t.code m).toNat = some m := by
  have hn : (allRegOps.map t.code).Nodup := by simpa [FuncTable.injective] using h
  cases hm : t.opOf (t.code m).toNat with
  | none =>
    have := List.find?_eq_none.1 hm m (mem_allRegOps m)
    simp at this
  | some m' =>
    have hc : t.code m' = t.code m := BitVec.eq_of_toNat_eq (FuncTable.code_of_opOf hm)
    rw [List.inj_on_of_nodup_map hn (mem_allRegOps m') (mem_allRegOps m) hc]

/-- With an injective table OPC the reverse table finds every mnemonic by its code. -/
theorem OpcTable.opOf_code {t : OpcTable} (h : t.injective = true) (m : ImmOp) : t.opOf (t.code m).toNat = some m := by
  have hn : (allImmOps.map t.code).Nodup := by simpa [OpcTable.injective] using h
  cases hm : t.opOf (t.code m).toNat with
  | none =>
    have := List.find?_eq_none.1 hm m (mem_allImmOps m)
    simp at this
  | some m' =>
    have hc : t.code m' = t.code m := BitVec.eq_of_toNat_eq (OpcTable.code_of_opOf hm)
    rw [List.inj_on_of_nodup_map hn (mem_allImmOps m') (mem_allImmOps m) hc]

/-- A table OPC that avoids the fixed opcodes gives no Immediate mnemonic one of them. -/
theorem OpcTable.code_ne_fixed {t : OpcTable} (h : t.avoidsFixed = true) (m : ImmOp) :
    (t.code m).toNat ≠ 0 ∧ (t.code m).toNat ≠ 2 ∧ (t.code m).toNat ≠ 3 ∧ (t.code m).toNat ≠ 0x3F := by
  have := List.all_eq_true.1 h m (mem_allImmOps m)
  simp only [ne_eq, decide_not, Bool.and_eq_true, Bool.not_eq_true', decide_eq_false_iff_not] at this
  obtain ⟨⟨⟨h0, h2⟩, h3⟩, h63⟩ := this
  refine ⟨fun e => h0 ?_, fun e => h2 ?_, fun e => h3 ?_, fun e => h63 ?_⟩ <;> exact BitVec.eq_of_toNat_eq e

/-- The parts of a valid configuration. -/
theorem Config.valid_iff (cfg : Config) :
    cfg.valid = true ↔
      cfg.opc.injective = true ∧ cfg.opc.avoidsFixed = true ∧ cfg.func.injective = true ∧ cfg.namesDistinct = true := by
  simp [Config.valid, and_assoc]

/-! ### Instructions by format -/

/-- Every instruction has one of the four formats. -/
theorem Instr.format_cases (i : Instr) :
    (∃ rs rt rd sh op, i = Instr.ofRegister rs rt rd sh op) ∨ (∃ rs rt imm op, i = Instr.ofImmediate rs rt imm op) ∨
      (∃ address op, i = Instr.ofJump address op) ∨ i = .halt := by
  cases i with
  | halt => exact .inr (.inr (.inr rfl))
  | j a => exact .inr (.inr (.inl ⟨a, .j, rfl⟩))
  | jal a => exact .inr (.inr (.inl ⟨a, .jal, rfl⟩))
  | sll rs rt rd sh => exact .inl ⟨rs, rt, rd, sh, .sll, rfl⟩
  | srl rs rt rd sh => exact .inl ⟨rs, rt, rd, sh, .srl, rfl⟩
  | jr rs rt rd sh => exact .inl ⟨rs, rt, rd, sh, .jr, rfl⟩
  | add rs rt rd sh => exact .inl ⟨rs, rt, rd, sh, .add, rfl⟩
  | addu rs rt rd sh => exact .inl ⟨rs, rt, rd, sh, .addu, rfl⟩
  | sub rs rt rd sh => exact .inl ⟨rs, rt, rd, sh, .sub, rfl⟩
  | subu rs rt rd sh => exact .inl ⟨rs, rt, rd, sh, .subu, rfl⟩
  | and rs rt rd sh => exact .inl ⟨rs, rt, rd, sh, .and, rfl⟩
  | or rs rt rd sh => exact .inl ⟨rs, rt, rd, sh, .or, rfl⟩
  | nor rs rt rd sh => exact .inl ⟨rs, rt, rd, sh, .nor, rfl⟩
  | slt rs rt rd sh => exact .inl ⟨rs, rt, rd, sh, .slt, rfl⟩
  | sltu rs rt rd sh => exact .inl ⟨rs, rt, rd, sh, .sltu, rfl⟩
  | beq rs rt imm => exact .inr (.inl ⟨rs, rt, imm, .beq, rfl⟩)
  | bne rs rt imm => exact .inr (.inl ⟨rs, rt, imm, .bne, rfl⟩)
  | addi rs rt imm => exact .inr (.inl ⟨rs, rt, imm, .addi, rfl⟩)
  | addiu rs rt imm => exact .inr (.inl ⟨rs, rt, imm, .addiu, rfl⟩)
  | slti rs rt imm => exact .inr (.inl ⟨rs, rt, imm, .slti, rfl⟩)
  | sltiu rs rt imm => exact .inr (.inl ⟨rs, rt, imm, .sltiu, rfl⟩)
  | andi rs rt imm => exact .inr (.inl ⟨rs, rt, imm, .andi, rfl⟩)
  | ori rs rt imm => exact .inr (.inl ⟨rs, rt, imm, .ori, rfl⟩)
  | lui rs rt imm => exact .inr (.inl ⟨rs, rt, imm, .lui, rfl⟩)
  | lw rs rt imm => exact .inr (.inl ⟨rs, rt, imm, .lw, rfl⟩)
  | lbu rs rt imm => exact .inr (.inl ⟨rs, rt, imm, .lbu, rfl⟩)
  | lhu rs rt imm => exact .inr (.inl ⟨rs, rt, imm, .lhu, rfl⟩)
  | sb rs rt imm => exact .inr (.inl ⟨rs, rt, imm, .sb, rfl⟩)
  | sh rs rt imm => exact .inr (.inl ⟨rs, rt, imm, .sh, rfl⟩)
  | sw rs rt imm => exact .inr (.inl ⟨rs, rt, imm, .sw, rfl⟩)
  | ll rs rt imm => exact .inr (.inl ⟨rs, rt, imm, .ll, rfl⟩)
  | sc rs rt imm => exact .inr (.inl ⟨rs, rt, imm, .sc, rfl⟩)

/-- The word of a Register-format instruction. -/
theorem encodeInstr_ofRegister (cfg : Config) (rs rt rd : RegIdx) (sh : Shamt) (op : RegOp) :
    encodeInstr cfg (Instr.ofRegister rs rt rd sh op) =
      encodeVariant 0 (.register rs.toNat rt.toNat rd.toNat sh.toNat (cfg.func.code op).toNat) := by cases op <;> rfl

/-- The word of an Immediate-format instruction. -/
theorem encodeInstr_ofImmediate (cfg : Config) (rs rt : RegIdx) (imm : Imm16) (op : ImmOp) :
    encodeInstr cfg (Instr.ofImmediate rs rt imm op) =
      encodeVariant (cfg.opc.code op).toNat (.immediate rs.toNat rt.toNat imm.toNat) := by cases op <;> rfl

/-- The word of a Jump-format instruction. -/
theorem encodeInstr_ofJump (cfg : Config) (address : Addr26) (op : JumpOp) :
    encodeInstr cfg (Instr.ofJump address op) =
      encodeVariant ((Mnemonic.jump op).opcode cfg).toNat (.jump address.toNat) := by cases op <;> rfl

/-- The tag of a word that is not a halt word. -/
theorem decodeVariant_of_not_halt {w : Word} (h : bits w 31 26 ≠ 0x3F) :
    decodeVariant w = if bits w 31 26 = opRegister.toNat then
      .register (bits w 25 21) (bits w 20 16) (bits w 15 11) (bits w 10 6) (bits w 5 0)
    else if bits w 31 26 = opJ.toNat ∨ bits w 31 26 = opJal.toNat then .jump (bits w 25 0)
    else .immediate (bits w 25 21) (bits w 20 16) (bits w 15 0) := by
  unfold decodeVariant
  rw [if_neg (show ¬ bits w 31 26 = opHalt.toNat from h)]

/-! ### Words by their fields -/

/-- The tag of a Register-format word. -/
theorem decodeVariant_register {w : Word} (h : bits w 31 26 = 0) :
    decodeVariant w = .register (bits w 25 21) (bits w 20 16) (bits w 15 11) (bits w 10 6) (bits w 5 0) := by
  simp [decodeVariant, h, opHalt, opRegister]

/-- The tag of a Jump-format word. -/
theorem decodeVariant_jump {w : Word} (h : bits w 31 26 = 2 ∨ bits w 31 26 = 3) :
    decodeVariant w = .jump (bits w 25 0) := by
  rcases h with h | h <;> simp [decodeVariant, h, opHalt, opRegister, opJ, opJal]

/-- The tag of a halt word. -/
theorem decodeVariant_halt {w : Word} (h : bits w 31 26 = 0x3F) : decodeVariant w = .halt := by
  simp [decodeVariant, h, opHalt]

/-- The tag of an Immediate-format word. -/
theorem decodeVariant_immediate {w : Word} (h0 : bits w 31 26 ≠ 0) (h2 : bits w 31 26 ≠ 2) (h3 : bits w 31 26 ≠ 3)
    (h : bits w 31 26 ≠ 0x3F) : decodeVariant w = .immediate (bits w 25 21) (bits w 20 16) (bits w 15 0) := by
  simp [decodeVariant, h0, h2, h3, h, opHalt, opRegister, opJ, opJal]

/-- A word with opcode 0x3F decodes to halt (30_encoding.md R56). -/
theorem decodeWord_halt {cfg : Config} {w : Word} (h : bits w 31 26 = 0x3F) : decodeWord cfg w = .ok .halt := by
  simp [decodeWord, instrOf, decode, decodeVariant_halt h]

end Sys2Proof
end

