-- ==== Sys2Proof/Laws/State.lean ====
section
/-!
SUPPORT. The fields of the state after each update: one lemma per field per update, true by unfolding, so that no later proof
unfolds a record update.
-/

namespace Sys2Proof.Machine

variable (s : State)

@[simp] theorem State.writeReg_regs (i : RegIdx) (v : Word) : (s.writeReg i v).regs = s.regs.set i.toNat v i.isLt := rfl
@[simp] theorem State.writeReg_pc (i : RegIdx) (v : Word) : (s.writeReg i v).pc = s.pc := rfl
@[simp] theorem State.writeReg_mem (i : RegIdx) (v : Word) : (s.writeReg i v).mem = s.mem := rfl
@[simp] theorem State.writeReg_runState (i : RegIdx) (v : Word) : (s.writeReg i v).runState = s.runState := rfl
@[simp] theorem State.writeReg_diag (i : RegIdx) (v : Word) : (s.writeReg i v).diag = s.diag := rfl
@[simp] theorem State.writeReg_fuel (i : RegIdx) (v : Word) : (s.writeReg i v).fuel = s.fuel := rfl
@[simp] theorem State.writeReg_cfg (i : RegIdx) (v : Word) : (s.writeReg i v).cfg = s.cfg := rfl
@[simp] theorem State.writeReg_loadUsed (i : RegIdx) (v : Word) : (s.writeReg i v).loadUsed = s.loadUsed := rfl

@[simp] theorem State.advance_regs : (s.advance).regs = s.regs := rfl
@[simp] theorem State.advance_pc : (s.advance).pc = s.pc + 1 := rfl
@[simp] theorem State.advance_mem : (s.advance).mem = s.mem := rfl
@[simp] theorem State.advance_runState : (s.advance).runState = s.runState := rfl
@[simp] theorem State.advance_diag : (s.advance).diag = s.diag := rfl
@[simp] theorem State.advance_fuel : (s.advance).fuel = s.fuel := rfl
@[simp] theorem State.advance_cfg : (s.advance).cfg = s.cfg := rfl
@[simp] theorem State.advance_loadUsed : (s.advance).loadUsed = s.loadUsed := rfl

@[simp] theorem State.redirect_regs (t : Word) : (s.redirect t).regs = s.regs := rfl
@[simp] theorem State.redirect_pc (t : Word) : (s.redirect t).pc = t := rfl
@[simp] theorem State.redirect_mem (t : Word) : (s.redirect t).mem = s.mem := rfl
@[simp] theorem State.redirect_runState (t : Word) : (s.redirect t).runState = s.runState := rfl
@[simp] theorem State.redirect_diag (t : Word) : (s.redirect t).diag = s.diag := rfl
@[simp] theorem State.redirect_fuel (t : Word) : (s.redirect t).fuel = s.fuel := rfl
@[simp] theorem State.redirect_cfg (t : Word) : (s.redirect t).cfg = s.cfg := rfl
@[simp] theorem State.redirect_loadUsed (t : Word) : (s.redirect t).loadUsed = s.loadUsed := rfl

@[simp] theorem State.writeBack_regs (i : RegIdx) (v : Word) : (s.writeBack i v).regs = s.regs.set i.toNat v i.isLt := rfl
@[simp] theorem State.writeBack_pc (i : RegIdx) (v : Word) : (s.writeBack i v).pc = s.pc + 1 := rfl
@[simp] theorem State.writeBack_mem (i : RegIdx) (v : Word) : (s.writeBack i v).mem = s.mem := rfl
@[simp] theorem State.writeBack_runState (i : RegIdx) (v : Word) : (s.writeBack i v).runState = s.runState := rfl
@[simp] theorem State.writeBack_diag (i : RegIdx) (v : Word) : (s.writeBack i v).diag = s.diag := rfl
@[simp] theorem State.writeBack_fuel (i : RegIdx) (v : Word) : (s.writeBack i v).fuel = s.fuel := rfl
@[simp] theorem State.writeBack_cfg (i : RegIdx) (v : Word) : (s.writeBack i v).cfg = s.cfg := rfl
@[simp] theorem State.writeBack_loadUsed (i : RegIdx) (v : Word) : (s.writeBack i v).loadUsed = s.loadUsed := rfl

@[simp] theorem State.raise_regs (c : FatalCondition) : (s.raise c).regs = s.regs := rfl
@[simp] theorem State.raise_pc (c : FatalCondition) : (s.raise c).pc = s.pc := rfl
@[simp] theorem State.raise_mem (c : FatalCondition) : (s.raise c).mem = s.mem := rfl
@[simp] theorem State.raise_runState (c : FatalCondition) : (s.raise c).runState = .faulted c := rfl
@[simp] theorem State.raise_diag (c : FatalCondition) : (s.raise c).diag = s.diag := rfl
@[simp] theorem State.raise_fuel (c : FatalCondition) : (s.raise c).fuel = s.fuel := rfl
@[simp] theorem State.raise_cfg (c : FatalCondition) : (s.raise c).cfg = s.cfg := rfl
@[simp] theorem State.raise_loadUsed (c : FatalCondition) : (s.raise c).loadUsed = s.loadUsed := rfl

@[simp] theorem State.log_regs (c : Condition) : (s.log c).regs = s.regs := rfl
@[simp] theorem State.log_pc (c : Condition) : (s.log c).pc = s.pc := rfl
@[simp] theorem State.log_mem (c : Condition) : (s.log c).mem = s.mem := rfl
@[simp] theorem State.log_runState (c : Condition) : (s.log c).runState = s.runState := rfl
@[simp] theorem State.log_diag (c : Condition) : (s.log c).diag = s.diag ++ [{ pc := s.pc, condition := c }] := rfl
@[simp] theorem State.log_fuel (c : Condition) : (s.log c).fuel = s.fuel := rfl
@[simp] theorem State.log_cfg (c : Condition) : (s.log c).cfg = s.cfg := rfl
@[simp] theorem State.log_loadUsed (c : Condition) : (s.log c).loadUsed = s.loadUsed := rfl

@[simp] theorem State.halt_regs (r : HaltReason) : (s.halt r).regs = s.regs := rfl
@[simp] theorem State.halt_pc (r : HaltReason) : (s.halt r).pc = s.pc := rfl
@[simp] theorem State.halt_mem (r : HaltReason) : (s.halt r).mem = s.mem := rfl
@[simp] theorem State.halt_runState (r : HaltReason) : (s.halt r).runState = .halted r := rfl
@[simp] theorem State.halt_diag (r : HaltReason) : (s.halt r).diag = s.diag := rfl
@[simp] theorem State.halt_fuel (r : HaltReason) : (s.halt r).fuel = s.fuel := rfl
@[simp] theorem State.halt_cfg (r : HaltReason) : (s.halt r).cfg = s.cfg := rfl
@[simp] theorem State.halt_loadUsed (r : HaltReason) : (s.halt r).loadUsed = s.loadUsed := rfl

@[simp] theorem State.endOutOfFuel_regs : (s.endOutOfFuel).regs = s.regs := rfl
@[simp] theorem State.endOutOfFuel_pc : (s.endOutOfFuel).pc = s.pc := rfl
@[simp] theorem State.endOutOfFuel_mem : (s.endOutOfFuel).mem = s.mem := rfl
@[simp] theorem State.endOutOfFuel_runState : (s.endOutOfFuel).runState = .outOfFuel := rfl
@[simp] theorem State.endOutOfFuel_diag : (s.endOutOfFuel).diag = s.diag := rfl
@[simp] theorem State.endOutOfFuel_fuel : (s.endOutOfFuel).fuel = s.fuel := rfl
@[simp] theorem State.endOutOfFuel_cfg : (s.endOutOfFuel).cfg = s.cfg := rfl
@[simp] theorem State.endOutOfFuel_loadUsed : (s.endOutOfFuel).loadUsed = s.loadUsed := rfl

@[simp] theorem State.startRun_regs : (s.startRun).regs = s.regs := rfl
@[simp] theorem State.startRun_pc : (s.startRun).pc = s.pc := rfl
@[simp] theorem State.startRun_mem : (s.startRun).mem = s.mem := rfl
@[simp] theorem State.startRun_runState : (s.startRun).runState = .running := rfl
@[simp] theorem State.startRun_diag : (s.startRun).diag = s.diag := rfl
@[simp] theorem State.startRun_fuel : (s.startRun).fuel = s.fuel := rfl
@[simp] theorem State.startRun_cfg : (s.startRun).cfg = s.cfg := rfl
@[simp] theorem State.startRun_loadUsed : (s.startRun).loadUsed = s.loadUsed := rfl

@[simp] theorem State.useLoad_regs : (s.useLoad).regs = s.regs := rfl
@[simp] theorem State.useLoad_pc : (s.useLoad).pc = s.pc := rfl
@[simp] theorem State.useLoad_mem : (s.useLoad).mem = s.mem := rfl
@[simp] theorem State.useLoad_runState : (s.useLoad).runState = s.runState := rfl
@[simp] theorem State.useLoad_diag : (s.useLoad).diag = s.diag := rfl
@[simp] theorem State.useLoad_fuel : (s.useLoad).fuel = s.fuel := rfl
@[simp] theorem State.useLoad_cfg : (s.useLoad).cfg = s.cfg := rfl
@[simp] theorem State.useLoad_loadUsed : (s.useLoad).loadUsed = true := rfl

@[simp] theorem State.placeAtPc_regs (w : Word) : (s.placeAtPc w).regs = s.regs := rfl
@[simp] theorem State.placeAtPc_pc (w : Word) : (s.placeAtPc w).pc = s.pc := rfl
@[simp] theorem State.placeAtPc_mem (w : Word) : (s.placeAtPc w).mem = s.mem.write s.pc.toNat w := rfl
@[simp] theorem State.placeAtPc_runState (w : Word) : (s.placeAtPc w).runState = s.runState := rfl
@[simp] theorem State.placeAtPc_diag (w : Word) : (s.placeAtPc w).diag = s.diag := rfl
@[simp] theorem State.placeAtPc_fuel (w : Word) : (s.placeAtPc w).fuel = s.fuel := rfl
@[simp] theorem State.placeAtPc_cfg (w : Word) : (s.placeAtPc w).cfg = s.cfg := rfl
@[simp] theorem State.placeAtPc_loadUsed (w : Word) : (s.placeAtPc w).loadUsed = s.loadUsed := rfl

/-! ### Registers -/

@[simp] theorem State.readReg_writeReg (i k : RegIdx) (v : Word) :
    (s.writeReg i v).readReg k = if k = i then v else s.readReg k := by
  unfold State.readReg State.writeReg
  by_cases h : k = i
  · subst h; simp
  · have hne : i.toNat ≠ k.toNat := fun e => h (BitVec.eq_of_toNat_eq e.symm)
    simp [h, hne]

@[simp] theorem State.readReg_writeBack (i k : RegIdx) (v : Word) :
    (s.writeBack i v).readReg k = if k = i then v else s.readReg k := s.readReg_writeReg i k v

@[simp] theorem State.readReg_advance (k : RegIdx) : (s.advance).readReg k = s.readReg k := rfl
@[simp] theorem State.readReg_redirect (t : Word) (k : RegIdx) : (s.redirect t).readReg k = s.readReg k := rfl
@[simp] theorem State.readReg_raise (c : FatalCondition) (k : RegIdx) : (s.raise c).readReg k = s.readReg k := rfl
@[simp] theorem State.readReg_log (c : Condition) (k : RegIdx) : (s.log c).readReg k = s.readReg k := rfl
@[simp] theorem State.readReg_halt (r : HaltReason) (k : RegIdx) : (s.halt r).readReg k = s.readReg k := rfl
@[simp] theorem State.readReg_endOutOfFuel (k : RegIdx) : (s.endOutOfFuel).readReg k = s.readReg k := rfl
@[simp] theorem State.readReg_startRun (k : RegIdx) : (s.startRun).readReg k = s.readReg k := rfl
@[simp] theorem State.readReg_useLoad (k : RegIdx) : (s.useLoad).readReg k = s.readReg k := rfl
@[simp] theorem State.readReg_placeAtPc (w : Word) (k : RegIdx) : (s.placeAtPc w).readReg k = s.readReg k := rfl

/-! ### Memory reads -/

@[simp] theorem State.memRead_writeReg (i : RegIdx) (v : Word) (a : Word) : (s.writeReg i v).memRead a = s.memRead a := rfl
@[simp] theorem State.memRead_advance (a : Word) : (s.advance).memRead a = s.memRead a := rfl
@[simp] theorem State.memRead_redirect (t : Word) (a : Word) : (s.redirect t).memRead a = s.memRead a := rfl
@[simp] theorem State.memRead_writeBack (i : RegIdx) (v : Word) (a : Word) : (s.writeBack i v).memRead a = s.memRead a := rfl
@[simp] theorem State.memRead_raise (c : FatalCondition) (a : Word) : (s.raise c).memRead a = s.memRead a := rfl
@[simp] theorem State.memRead_log (c : Condition) (a : Word) : (s.log c).memRead a = s.memRead a := rfl
@[simp] theorem State.memRead_halt (r : HaltReason) (a : Word) : (s.halt r).memRead a = s.memRead a := rfl
@[simp] theorem State.memRead_endOutOfFuel (a : Word) : (s.endOutOfFuel).memRead a = s.memRead a := rfl
@[simp] theorem State.memRead_startRun (a : Word) : (s.startRun).memRead a = s.memRead a := rfl
@[simp] theorem State.memRead_useLoad (a : Word) : (s.useLoad).memRead a = s.memRead a := rfl

/-! ### report -/

@[simp] theorem State.report_regs (c : Condition) : (s.report c).regs = s.regs := by unfold State.report; split <;> rfl
@[simp] theorem State.report_mem (c : Condition) : (s.report c).mem = s.mem := by unfold State.report; split <;> rfl
@[simp] theorem State.report_diag (c : Condition) :
    (s.report c).diag = s.diag ++ [{ pc := s.pc, condition := c }] := by unfold State.report; split <;> rfl
@[simp] theorem State.report_fuel (c : Condition) : (s.report c).fuel = s.fuel := by unfold State.report; split <;> rfl
@[simp] theorem State.report_cfg (c : Condition) : (s.report c).cfg = s.cfg := by unfold State.report; split <;> rfl
@[simp] theorem State.report_loadUsed (c : Condition) : (s.report c).loadUsed = s.loadUsed := by
  unfold State.report; split <;> rfl
@[simp] theorem State.report_pc (c : Condition) :
    (s.report c).pc = if s.cfg.runtimeFatal then s.pc else s.pc + 1 := by unfold State.report; split <;> rfl
@[simp] theorem State.report_runState (c : Condition) :
    (s.report c).runState = if s.cfg.runtimeFatal then .faulted (.reported c) else s.runState := by
  unfold State.report; split <;> rfl
@[simp] theorem State.readReg_report (c : Condition) (k : RegIdx) : (s.report c).readReg k = s.readReg k := by
  unfold State.report; split <;> rfl
@[simp] theorem State.memRead_report (c : Condition) (a : Word) : (s.report c).memRead a = s.memRead a := by
  unfold State.report; split <;> rfl

/-! ### spendFuel -/

@[simp] theorem State.spendFuel_regs : s.spendFuel.regs = s.regs := by unfold State.spendFuel; split <;> rfl
@[simp] theorem State.spendFuel_pc : s.spendFuel.pc = s.pc := by unfold State.spendFuel; split <;> rfl
@[simp] theorem State.spendFuel_mem : s.spendFuel.mem = s.mem := by unfold State.spendFuel; split <;> rfl
@[simp] theorem State.spendFuel_runState : s.spendFuel.runState = s.runState := by unfold State.spendFuel; split <;> rfl
@[simp] theorem State.spendFuel_diag : s.spendFuel.diag = s.diag := by unfold State.spendFuel; split <;> rfl
@[simp] theorem State.spendFuel_cfg : s.spendFuel.cfg = s.cfg := by unfold State.spendFuel; split <;> rfl
@[simp] theorem State.spendFuel_loadUsed : s.spendFuel.loadUsed = s.loadUsed := by unfold State.spendFuel; split <;> rfl
theorem State.spendFuel_fuel :
    s.spendFuel.fuel = if s.runState = .running then s.fuel.map fun n => n - 1 else s.fuel := by
  unfold State.spendFuel; split <;> rfl
@[simp] theorem State.readReg_spendFuel (k : RegIdx) : s.spendFuel.readReg k = s.readReg k := by
  unfold State.spendFuel; split <;> rfl
@[simp] theorem State.memRead_spendFuel (a : Word) : s.spendFuel.memRead a = s.memRead a := by
  unfold State.spendFuel; split <;> rfl

/-! ### The two tests before a fetch -/

theorem State.pcExhausted_iff : s.pcExhausted = true ↔ staticDataBase ≤ s.pc.toNat := by
  unfold State.pcExhausted; rw [decide_eq_true_iff]
theorem State.fuelExhausted_iff : s.fuelExhausted = true ↔ s.fuel = some 0 := by simp [State.fuelExhausted]

/-! ### Reset -/

@[simp] theorem State.readReg_resetWith (cfg : Config) (k : RegIdx) : (State.resetWith cfg).readReg k = 0 := by
  simp [State.readReg, State.resetWith]

end Sys2Proof.Machine
end

