-- ==== Sys2Proof/Laws/Memory.lean ====
section
/-!
SUPPORT. The laws of memory: a read after a write, and that every memory operation keeps the canonical form `Memory.wf`.
-/

namespace Sys2Proof.Machine

/-- The canonical form in terms of `List.Pairwise`. -/
theorem Memory.rising_iff (m : Memory) : Memory.rising m = true ↔ m.Pairwise fun a b => a.1 < b.1 := by
  induction m with
  | nil => simp [Memory.rising]
  | cons a m ih =>
    cases m with
    | nil => simp [Memory.rising]
    | cons b m =>
      simp only [Memory.rising, Bool.and_eq_true, decide_eq_true_eq, ih]
      constructor
      · rintro ⟨hab, hm⟩
        refine List.pairwise_cons.2 ⟨fun c hc => ?_, hm⟩
        rcases List.mem_cons.1 hc with rfl | hc
        · exact hab
        · exact hab.trans ((List.pairwise_cons.1 hm).1 c hc)
      · intro h
        exact ⟨(List.pairwise_cons.1 h).1 b (by simp), (List.pairwise_cons.1 h).2⟩

theorem Memory.wf_iff (m : Memory) :
    Memory.wf m = true ↔ (m.Pairwise fun a b => a.1 < b.1) ∧ ∀ c ∈ m, c.1 < memWords ∧ c.2 ≠ Memory.unlisted := by
  simp [Memory.wf, Memory.rising_iff]

@[simp] theorem Memory.wf_nil : Memory.wf [] = true := rfl

theorem Memory.wf_tail {c : Cell} {m : Memory} (h : Memory.wf (c :: m) = true) : Memory.wf m = true := by
  rw [Memory.wf_iff] at h ⊢
  exact ⟨(List.pairwise_cons.1 h.1).2, fun d hd => h.2 d (List.mem_cons_of_mem _ hd)⟩

/-- Below the first listed address every cell reads as unlisted. -/
theorem Memory.read_below (m : Memory) (a : Nat) (h : ∀ c ∈ m, a < c.1) : m.read a = Memory.unlisted := by
  induction m with
  | nil => rfl
  | cons c m ih =>
    have hc := h c (by simp)
    simp only [Memory.read]
    rw [if_neg (by omega)]
    exact ih fun d hd => h d (List.mem_cons_of_mem _ hd)

theorem Memory.read_cons (a b : Nat) (v : Word) (m : Memory) (h : ∀ c ∈ m, a < c.1) :
    (Memory.cons a v m).read b = if b = a then v else m.read b := by
  unfold Memory.cons
  by_cases hv : v = Memory.unlisted
  · rw [if_pos hv]
    by_cases hb : b = a
    · subst hb; rw [if_pos rfl, Memory.read_below m b h, hv]
    · rw [if_neg hb]
  · rw [if_neg hv]
    simp only [Memory.read]
    by_cases hb : a = b
    · subst hb; simp
    · rw [if_neg hb, if_neg (Ne.symm hb)]

/-- A read after a write: the written word at its address, every other cell as before. -/
theorem Memory.read_write {m : Memory} (hm : Memory.wf m = true) (a b : Nat) (v : Word) :
    (m.write a v).read b = if b = a then v else m.read b := by
  induction m with
  | nil => simp only [Memory.write]; exact Memory.read_cons a b v [] (by simp)
  | cons c m ih =>
    have hp := (List.pairwise_cons.1 ((Memory.wf_iff _).1 hm).1).1
    simp only [Memory.write]
    split
    · rename_i hac
      refine Memory.read_cons a b v (c :: m) fun d hd => ?_
      rcases List.mem_cons.1 hd with rfl | hd
      · exact hac
      · exact hac.trans (hp d hd)
    · split
      · rename_i hac
        subst hac
        rw [Memory.read_cons c.1 b v m hp]
        by_cases hb : b = c.1
        · simp [hb]
        · simp only [Memory.read, if_neg hb, if_neg (Ne.symm hb)]
      · rename_i h1 h2
        simp only [Memory.read, ih (Memory.wf_tail hm)]
        by_cases hcb : c.1 = b
        · rw [if_pos hcb, if_neg (by omega), if_pos hcb]
        · rw [if_neg hcb, if_neg hcb]

theorem Memory.read_cons_of_ne {a b : Nat} (v : Word) (m : Memory) (h : b ≠ a) : (Memory.cons a v m).read b = m.read b := by
  unfold Memory.cons
  split
  · rfl
  · simp only [Memory.read]; rw [if_neg (Ne.symm h)]

/-- A write leaves every other address alone, in a memory of any form. -/
theorem Memory.read_write_of_ne {a b : Nat} (v : Word) (m : Memory) (h : b ≠ a) : (m.write a v).read b = m.read b := by
  induction m with
  | nil => exact Memory.read_cons_of_ne v [] h
  | cons c m ih =>
    simp only [Memory.write]
    split
    · exact Memory.read_cons_of_ne v (c :: m) h
    · split
      · rename_i hac
        rw [Memory.read_cons_of_ne v m h]
        simp only [Memory.read]; rw [if_neg (by omega)]
      · simp only [Memory.read, ih]

theorem Memory.mem_cons_of {a : Nat} {v : Word} {m : Memory} {c : Cell} (h : c ∈ Memory.cons a v m) :
    c = (a, v) ∨ c ∈ m := by
  unfold Memory.cons at h
  split at h
  · exact .inr h
  · exact List.mem_cons.1 h

theorem Memory.mem_write {m : Memory} {a : Nat} {v : Word} {c : Cell} (h : c ∈ m.write a v) : c = (a, v) ∨ c ∈ m := by
  induction m with
  | nil => exact Memory.mem_cons_of h
  | cons d m ih =>
    simp only [Memory.write] at h
    split at h
    · exact Memory.mem_cons_of h
    · split at h
      · rcases Memory.mem_cons_of h with h | h
        · exact .inl h
        · exact .inr (List.mem_cons_of_mem _ h)
      · rcases List.mem_cons.1 h with h | h
        · exact .inr (by simp [h])
        · rcases ih h with h | h
          · exact .inl h
          · exact .inr (List.mem_cons_of_mem _ h)

theorem Memory.wf_cons {a : Nat} {v : Word} {m : Memory} (hm : Memory.wf m = true) (ha : a < memWords)
    (h : ∀ c ∈ m, a < c.1) : Memory.wf (Memory.cons a v m) = true := by
  unfold Memory.cons
  split
  · exact hm
  · rename_i hv
    rw [Memory.wf_iff] at hm ⊢
    refine ⟨List.pairwise_cons.2 ⟨h, hm.1⟩, fun c hc => ?_⟩
    rcases List.mem_cons.1 hc with rfl | hc
    · exact ⟨ha, hv⟩
    · exact hm.2 c hc

/-- Writing a cell of the array keeps the canonical form. -/
theorem Memory.wf_write {m : Memory} (hm : Memory.wf m = true) {a : Nat} (ha : a < memWords) (v : Word) :
    Memory.wf (m.write a v) = true := by
  induction m with
  | nil => exact Memory.wf_cons rfl ha (by simp)
  | cons c m ih =>
    have hp := (List.pairwise_cons.1 ((Memory.wf_iff _).1 hm).1).1
    simp only [Memory.write]
    split
    · rename_i hac
      refine Memory.wf_cons hm ha fun d hd => ?_
      rcases List.mem_cons.1 hd with rfl | hd
      · exact hac
      · exact hac.trans (hp d hd)
    · split
      · rename_i hac
        exact Memory.wf_cons (Memory.wf_tail hm) ha (hac ▸ hp)
      · rename_i h1 h2
        have ht := ih (Memory.wf_tail hm)
        rw [Memory.wf_iff] at hm ht ⊢
        refine ⟨List.pairwise_cons.2 ⟨fun d hd => ?_, ht.1⟩, fun d hd => ?_⟩
        · rcases Memory.mem_write hd with rfl | hd
          · show c.1 < a; omega
          · exact hp d hd
        · rcases List.mem_cons.1 hd with rfl | hd
          · exact hm.2 _ (by simp)
          · exact ht.2 d hd

/-- Writing consecutive cells of the array keeps the canonical form. -/
theorem Memory.wf_writeList {m : Memory} (hm : Memory.wf m = true) (a : Nat) (vs : List Word)
    (h : a + vs.length ≤ memWords) : Memory.wf (m.writeList a vs) = true := by
  induction vs generalizing m a with
  | nil => exact hm
  | cons v vs ih =>
    simp only [List.length_cons] at h
    exact ih (Memory.wf_write hm (by omega) v) (a + 1) (by omega)

/-- Reading after consecutive cells have been written. -/
theorem Memory.read_writeList {m : Memory} (hm : Memory.wf m = true) (a b : Nat) (vs : List Word)
    (h : a + vs.length ≤ memWords) :
    (m.writeList a vs).read b = if a ≤ b then vs.getD (b - a) (m.read b) else m.read b := by
  induction vs generalizing m a with
  | nil => simp [Memory.writeList]
  | cons v vs ih =>
    simp only [List.length_cons] at h
    simp only [Memory.writeList]
    rw [ih (Memory.wf_write hm (by omega) v) (a + 1) (by omega), Memory.read_write hm]
    rcases Nat.lt_trichotomy b a with hb | hb | hb
    · simp [show ¬ a + 1 ≤ b by omega, show ¬ a ≤ b by omega, show b ≠ a by omega]
    · subst hb; simp
    · obtain ⟨k, rfl⟩ : ∃ k, b = a + 1 + k := ⟨b - (a + 1), by omega⟩
      have e1 : a + 1 + k - (a + 1) = k := by omega
      have e2 : a + 1 + k - a = k + 1 := by omega
      have e3 : a + 1 + k ≠ a := by omega
      simp [e1, e2, e3, show a ≤ a + 1 + k by omega]

/-- MemWrite, said once (20_memory.md R35). -/
theorem State.memWrite_cases (s : State) (a v : Word) :
    (a.toNat < memWords ∧ s.memWrite a v = some { s with mem := s.mem.write a.toNat v }) ∨
      (memWords ≤ a.toNat ∧ s.memWrite a v = none) := by
  unfold State.memWrite
  by_cases h : a.toNat < memWords
  · exact .inl ⟨h, if_pos h⟩
  · exact .inr ⟨by omega, if_neg h⟩

/-- MemRead, said once (20_memory.md R34). -/
theorem State.memRead_cases (s : State) (a : Word) :
    (a.toNat < memWords ∧ s.memRead a = some (s.mem.read a.toNat)) ∨ (memWords ≤ a.toNat ∧ s.memRead a = none) := by
  unfold State.memRead
  by_cases h : a.toNat < memWords
  · exact .inl ⟨h, if_pos h⟩
  · exact .inr ⟨by omega, if_neg h⟩

/-- The memory of a reset machine is in canonical form. -/
theorem State.wf_reset : Memory.wf State.reset.mem = true := rfl

/-- A store into the array keeps the canonical form. -/
theorem State.wf_memWrite {s t : State} {a v : Word} (hs : Memory.wf s.mem = true) (h : s.memWrite a v = some t) :
    Memory.wf t.mem = true := by
  rcases s.memWrite_cases a v with ⟨ha, e⟩ | ⟨_, e⟩
  · rw [e] at h; cases h; exact Memory.wf_write hs ha v
  · rw [e] at h; cases h

/-- The load checks pass exactly up to the thresholds (43_run_loop.md R151). -/
theorem loadCheck_eq_none (p : Program) :
    loadCheck p = none ↔ p.bin.length ≤ 0x0FC00000 ∧ p.staticData.length ≤ 0x8000 := by
  unfold loadCheck
  rw [show staticDataBase - textBase = 0x0FC00000 from rfl, show dynamicBase - staticDataBase = 0x8000 from rfl]
  split
  · simp only [reduceCtorEq, false_iff]; omega
  · split
    · simp only [reduceCtorEq, false_iff]; omega
    · simp only [true_iff]; omega

/-- Load, said once (43_run_loop.md R150): where the checks pass, only the memory changes. -/
theorem State.loadProgram_of_check {p : Program} (s : State) (h : loadCheck p = none) :
    s.loadProgram p = .ok { s with mem := s.mem.loadProgram p } := by
  unfold State.loadProgram; rw [h]

/-- Load keeps the canonical form. -/
theorem State.wf_loadProgram {s t : State} {p : Program} (hs : Memory.wf s.mem = true) (h : s.loadProgram p = .ok t) :
    Memory.wf t.mem = true := by
  unfold State.loadProgram loadCheck at h
  split at h
  · cases h
  · rename_i hc
    cases h
    have h1 : ¬ staticDataBase - textBase < p.bin.length := by intro hh; simp [hh] at hc
    have h2 : ¬ dynamicBase - staticDataBase < p.staticData.length := by intro hh; simp [h1, hh] at hc
    simp only [staticDataBase, textBase, dynamicBase] at h1 h2
    refine Memory.wf_writeList (Memory.wf_writeList hs _ _ ?_) _ _ ?_ <;> simp only [staticDataBase, textBase, memWords] <;> omega

end Sys2Proof.Machine
end

