-- ==== Sys2Proof/Laws/Exec.lean ====
section
/-!
SUPPORT. What an instruction can do, said once: the effects of `exec` and the inversion of `step`.
-/

namespace Sys2Proof.Machine

/-- The kinds of effect an instruction `i` can have on a state (44_alu.md, 45_memory_ops.md, 46_control_transfer.md). -/
inductive Effect (i : Instr) (s : State) : State → Prop where
  /-- One register is written and the pc moves on. -/
  | writes (d : RegIdx) (v : Word) : Effect i s (s.writeBack d v)
  /-- An overflow is reported. -/
  | overflows (a b : Word) (h : addOverflows a b = true) : Effect i s (s.report (.arithmeticOverflow a b))
  /-- An unsupported word is reported. -/
  | unsupported (w : Word) : Effect i s (s.report (.unsupportedInstruction w))
  /-- A load outside the array. -/
  | loadFault (rs rt : RegIdx) (imm : Imm16) (hi : i = .lw rs rt imm)
      (h : memWords ≤ (s.effectiveAddress rs imm).toNat) :
      Effect i s (s.raise (.memoryRange (s.effectiveAddress rs imm)))
  /-- A store outside the array. -/
  | storeFault (rs rt : RegIdx) (imm : Imm16) (hi : i = .sw rs rt imm)
      (h : memWords ≤ (s.effectiveAddress rs imm).toNat) :
      Effect i s (s.raise (.memoryRange (s.effectiveAddress rs imm)))
  /-- A store inside the array. -/
  | stores (a v : Word) (h : a.toNat < memWords) :
      Effect i s ({ s with mem := s.mem.write a.toNat v } : State).advance
  /-- An untaken branch. -/
  | moves : Effect i s s.advance
  /-- A redirection of the pc. -/
  | redirects (t : Word) : Effect i s (s.redirect t)
  /-- A call. -/
  | links (t : Word) : Effect i s ((s.writeReg s.cfg.ra (s.pc + 1)).redirect t)
  /-- The sentinel. -/
  | halts (hi : i = .halt) : Effect i s (s.halt .sentinel)

theorem addChecked_effect (i : Instr) (s : State) (d : RegIdx) (a b : Word) : Effect i s (s.addChecked d a b) := by
  unfold State.addChecked
  split
  · rename_i h; exact .overflows a b h
  · exact .writes d (a + b)

theorem execLw_effect (rs rt : RegIdx) (imm : Imm16) (s : State) :
    ∃ t, execLw rs rt imm s = .next t ∧ Effect (.lw rs rt imm) s t := by
  unfold execLw
  rcases s.memRead_cases (s.effectiveAddress rs imm) with ⟨_, e⟩ | ⟨h, e⟩
  · rw [e]; exact ⟨_, rfl, .writes _ _⟩
  · rw [e]; exact ⟨_, rfl, .loadFault rs rt imm rfl h⟩

theorem execSw_effect (rs rt : RegIdx) (imm : Imm16) (s : State) :
    ∃ t, execSw rs rt imm s = .next t ∧ Effect (.sw rs rt imm) s t := by
  unfold execSw
  rcases s.memWrite_cases (s.effectiveAddress rs imm) (s.readReg rt) with ⟨h, e⟩ | ⟨h, e⟩
  · rw [e]; exact ⟨_, rfl, .stores _ _ h⟩
  · rw [e]; exact ⟨_, rfl, .storeFault rs rt imm rfl h⟩

/-- Every instruction answers a next state, and its effect is one of `Effect`. -/
theorem exec_effect (i : Instr) (s : State) : ∃ t, exec i s = .next t ∧ Effect i s t := by
  cases i with
  | lw rs rt imm => exact execLw_effect rs rt imm s
  | sw rs rt imm => exact execSw_effect rs rt imm s
  | add => exact ⟨_, rfl, addChecked_effect _ _ _ _ _⟩
  | addi => exact ⟨_, rfl, addChecked_effect _ _ _ _ _⟩
  | beq => simp only [exec, execBeq]; split; exacts [⟨_, rfl, .redirects _⟩, ⟨_, rfl, .moves⟩]
  | bne => simp only [exec, execBne]; split; exacts [⟨_, rfl, .moves⟩, ⟨_, rfl, .redirects _⟩]
  | j => exact ⟨_, rfl, .redirects _⟩
  | jal => exact ⟨_, rfl, .links _⟩
  | jr => exact ⟨_, rfl, .redirects _⟩
  | halt => exact ⟨_, rfl, .halts rfl⟩
  | lbu => exact ⟨_, rfl, .unsupported _⟩
  | lhu => exact ⟨_, rfl, .unsupported _⟩
  | sb => exact ⟨_, rfl, .unsupported _⟩
  | sh => exact ⟨_, rfl, .unsupported _⟩
  | ll => exact ⟨_, rfl, .unsupported _⟩
  | sc => exact ⟨_, rfl, .unsupported _⟩
  | sll => exact ⟨_, rfl, .writes _ _⟩
  | srl => exact ⟨_, rfl, .writes _ _⟩
  | addu => exact ⟨_, rfl, .writes _ _⟩
  | sub => exact ⟨_, rfl, .writes _ _⟩
  | subu => exact ⟨_, rfl, .writes _ _⟩
  | and => exact ⟨_, rfl, .writes _ _⟩
  | or => exact ⟨_, rfl, .writes _ _⟩
  | nor => exact ⟨_, rfl, .writes _ _⟩
  | slt => exact ⟨_, rfl, .writes _ _⟩
  | sltu => exact ⟨_, rfl, .writes _ _⟩
  | addiu => exact ⟨_, rfl, .writes _ _⟩
  | slti => exact ⟨_, rfl, .writes _ _⟩
  | sltiu => exact ⟨_, rfl, .writes _ _⟩
  | andi => exact ⟨_, rfl, .writes _ _⟩
  | ori => exact ⟨_, rfl, .writes _ _⟩
  | lui => exact ⟨_, rfl, .writes _ _⟩

/-- The inversion of `exec`. -/
theorem effect_of_exec {i : Instr} {s t : State} (h : exec i s = .next t) : Effect i s t := by
  obtain ⟨u, hu, he⟩ := exec_effect i s
  rw [hu] at h; cases h; exact he

/-- What a step can do (43_run_loop.md R153): it is taken by a running core only, and it ends the run without fuel, or at the
end of the range, or executes the fetched word. -/
inductive StepEffect (s : State) : State → Prop where
  | outOfFuel (h : s.fuel = some 0) : StepEffect s s.endOutOfFuel
  | rangeExhausted (hf : s.fuel ≠ some 0) (h : staticDataBase ≤ s.pc.toNat) : StepEffect s (s.halt .rangeExhausted)
  | executes (i : Instr) (t : State) (hf : s.fuel ≠ some 0) (hp : s.pc.toNat < staticDataBase)
      (hd : decodeWord s.cfg (s.mem.read s.pc.toNat) = .ok i) (he : exec i s = .next t) : StepEffect s t.spendFuel
  | undefined (w : Word) (hf : s.fuel ≠ some 0) (hp : s.pc.toNat < staticDataBase)
      (hd : decodeWord s.cfg (s.mem.read s.pc.toNat) = .error (.undefinedEncoding w)) :
      StepEffect s (s.report (.unsupportedInstruction w)).spendFuel

theorem memRead_in_text {s : State} (h : s.pc.toNat < staticDataBase) : s.memRead s.pc = some (s.mem.read s.pc.toNat) := by
  unfold State.memRead
  exact if_pos (by simp only [staticDataBase] at h; simp only [memWords]; omega)

/-- The inversion of `step`. -/
theorem stepEffect_of_step {s t : State} (h : step s = .next t) : s.runState = .running ∧ StepEffect s t := by
  unfold step stepOf at h
  cases hr : s.runState <;> rw [hr] at h <;> try cases h
  refine ⟨rfl, ?_⟩
  simp only [cycle] at h
  split at h
  · rename_i hf; cases h; exact .outOfFuel (by simpa [State.fuelExhausted] using hf)
  · rename_i hf
    replace hf : s.fuel ≠ some 0 := by simpa [State.fuelExhausted] using hf
    split at h
    · rename_i hp; cases h; exact .rangeExhausted hf (by simpa [State.pcExhausted] using hp)
    · rename_i hp
      replace hp : s.pc.toNat < staticDataBase := by simpa [State.pcExhausted] using hp
      simp only [fetchAndExec, memRead_in_text hp, execWord] at h
      cases hd : decodeWord s.cfg (s.mem.read s.pc.toNat) with
      | ok i =>
        obtain ⟨u, hu, _⟩ := exec_effect i s
        simp only [hd, hu, afterExec] at h
        cases h; exact .executes i u hf hp hd hu
      | error e =>
        cases e with
        | undefinedEncoding w =>
          simp only [hd, execUnsupported, afterExec] at h
          cases h; exact .undefined w hf hp hd

/-- A running core always takes a step. -/
theorem running_steps {s : State} (h : s.runState = .running) : ∃ t, step s = .next t := by
  unfold step stepOf
  rw [h]
  simp only [cycle]
  split
  · exact ⟨_, rfl⟩
  · split
    · exact ⟨_, rfl⟩
    · unfold fetchAndExec
      split
      · rename_i w _
        unfold execWord
        split
        · rename_i i _
          obtain ⟨u, hu, _⟩ := exec_effect i s
          rw [hu]; exact ⟨_, rfl⟩
        · exact ⟨_, rfl⟩
      · exact ⟨_, rfl⟩

end Sys2Proof.Machine
end

