-- ==== Sys2Proof/Laws/Frames.lean ====
section
/-!
SUPPORT. What each shared operation does, as a frame of Safety.lean: a meaning's statement cites these and unfolds nothing.
-/

namespace Sys2Proof.Machine

variable (s : State)

/-! ### Registers -/

theorem State.readReg_writeReg_of_ne {d k : RegIdx} (v : Word) (h : k ≠ d) : (s.writeReg d v).readReg k = s.readReg k := by
  simp only [State.readReg, State.writeReg]
  rw [Vector.getElem_set_ne]
  exact fun e => h (BitVec.eq_of_toNat_eq e.symm)

theorem oneReg_writeReg (d : RegIdx) (v : Word) : OneReg s (s.writeReg d v) d v :=
  ⟨by simp [State.readReg, State.writeReg], fun _ hk => s.readReg_writeReg_of_ne v hk⟩

/-- `writeBack`: one register, the next word, nothing else. -/
theorem writesReg_writeBack (d : RegIdx) (v : Word) : WritesReg s (s.writeBack d v) d v :=
  ⟨oneReg_writeReg s d v, rfl, fun _ => rfl, rfl, rfl, rfl, rfl, rfl⟩

/-! ### The pc -/

/-- `redirect`: the pc and nothing else. -/
theorem setsPc_redirect (t : Word) : SetsPc s (s.redirect t) t := ⟨fun _ => rfl, rfl, fun _ => rfl, rfl, rfl, rfl, rfl, rfl⟩

/-- `advance`: the pc and nothing else. -/
theorem setsPc_advance : SetsPc s s.advance (s.pc + 1) := ⟨fun _ => rfl, rfl, fun _ => rfl, rfl, rfl, rfl, rfl, rfl⟩

/-! ### The two channels -/

/-- `report` (60_exceptions.md R244, R245). -/
theorem reports_report (c : Condition) : Reports s (s.report c) c :=
  ⟨fun k => by simp, fun a => by simp, by simp, by simp, by simp, by simp, fun h => by simp [h], fun h => by simp [h]⟩

/-- `raise` of MemoryRange (60_exceptions.md R243). -/
theorem raisesRange_raise (ea : Word) : RaisesRange s (s.raise (.memoryRange ea)) ea :=
  ⟨rfl, fun _ => rfl, fun _ => rfl, rfl, rfl, rfl, rfl, rfl⟩

/-! ### Memory -/

/-- A cell of the array written. -/
theorem oneCell_write {t : State} {a v : Word} (hm : Memory.wf s.mem = true) (h : a.toNat < memWords)
    (ht : t.mem = Memory.write s.mem a.toNat v) : OneCell s t a v := by
  refine ⟨?_, fun b hb => ?_⟩
  · rw [State.memRead, if_pos h, ht, Memory.read_write hm, if_pos rfl]
  · unfold State.memRead
    rw [ht, Memory.read_write hm, if_neg (show ¬ b.toNat = a.toNat from fun e => hb (BitVec.eq_of_toNat_eq e))]

/-- MemWrite leaves every other address alone, in a memory of any form. -/
theorem State.memRead_memWrite_of_ne {s t : State} {a b v : Word} (h : s.memWrite a v = some t) (hb : b ≠ a) :
    t.memRead b = s.memRead b := by
  rcases s.memWrite_cases a v with ⟨_, e⟩ | ⟨_, e⟩
  · rw [e] at h; cases h
    unfold State.memRead
    rw [Memory.read_write_of_ne v s.mem fun e => hb (BitVec.eq_of_toNat_eq e)]
  · rw [e] at h; cases h

/-! ### Operands -/

@[simp] theorem sext16_toInt (imm : Imm16) : (sext16 imm).toInt = imm.toInt := by
  simp [sext16, BitVec.toInt_signExtend_of_le]

/-- A sum of words from the exact sum. -/
theorem ofInt_add_toInt (a b : Word) : BitVec.ofInt 32 (a.toInt + b.toInt) = a + b := by
  rw [BitVec.ofInt_add]; simp

/-- A difference of words from the exact difference. -/
theorem ofInt_sub_toInt (a b : Word) : BitVec.ofInt 32 (a.toInt - b.toInt) = a - b := by
  apply BitVec.eq_of_toInt_eq; simp [BitVec.toInt_sub]

/-- The effective address as a number (45_memory_ops.md R200). -/
theorem State.effectiveAddress_eq (rs : RegIdx) (imm : Imm16) :
    s.effectiveAddress rs imm = BitVec.ofInt 32 ((s.readReg rs).toInt + imm.toInt) := by
  rw [← sext16_toInt, ofInt_add_toInt]; rfl

/-- The branch target as a number (46_control_transfer.md R216). -/
theorem State.branchTarget_eq (imm : Imm16) :
    s.branchTarget imm = BitVec.ofInt 32 ((s.pc.toNat : Int) + 1 + imm.toInt) := by
  rw [BitVec.ofInt_add, BitVec.ofInt_add, ← sext16_toInt, BitVec.ofInt_toInt]; simp [State.branchTarget]

/-- The mask of the segment bits as a number. -/
theorem segment_mask (p : Word) : p &&& (0xFC000000 : Word) = BitVec.ofNat 32 ((p.toNat / 2 ^ 26) <<< 26) := by
  apply BitVec.eq_of_getLsbD_eq
  intro k hk
  rw [BitVec.getLsbD_and, BitVec.getLsbD_ofNat, Nat.testBit_shiftLeft, Nat.testBit_div_two_pow]
  by_cases h : 26 ≤ k
  · have hm : (0xFC000000 : Word).getLsbD k = true := by interval_cases k <;> rfl
    rw [hm]; simp only [BitVec.getLsbD, h, hk, decide_true, Bool.true_and, Bool.and_true]; congr 1; omega
  · have hm : (0xFC000000 : Word).getLsbD k = false := by
      have h' : k < 26 := by omega
      interval_cases k <;> rfl
    simp only [hm, h, decide_false, Bool.false_and, Bool.and_false]

/-- The jump target as a number (46_control_transfer.md R218). -/
theorem State.jumpTarget_eq (address : Addr26) :
    s.jumpTarget address = BitVec.ofNat 32 (s.pc.toNat / 2 ^ 26 * 2 ^ 26 + address.toNat) := by
  have h : s.pc.toNat / 2 ^ 26 * 2 ^ 26 + address.toNat = (s.pc.toNat / 2 ^ 26) <<< 26 ||| address.toNat := by
    rw [Nat.shiftLeft_eq, Nat.mul_comm, ← Nat.two_pow_add_eq_or_of_lt address.isLt]
  unfold State.jumpTarget
  rw [h, segment_mask]
  apply BitVec.eq_of_toNat_eq
  rw [BitVec.toNat_or]
  simp

/-! ### The overflow predicate -/

/-- The predicate as a range test of the exact sum (44_alu.md R189). -/
theorem addOverflows_iff (a b : Word) :
    addOverflows a b = true ↔ (a.toInt + b.toInt < -2147483648 ∨ 2147483647 < a.toInt + b.toInt) := by
  unfold addOverflows
  simp only [Bool.and_eq_true, beq_iff_eq, bne_iff_ne, ne_eq, BitVec.msb_eq_toInt, BitVec.toInt_add]
  have := a.toInt_lt; have := b.toInt_lt; have := a.le_toInt; have := b.le_toInt
  simp only [Int.bmod_def, decide_eq_decide]
  split <;> constructor <;> intro h <;> omega

/-- Without overflow the sum is exact. -/
theorem toInt_add_of_not_overflows {a b : Word} (h : ¬ addOverflows a b = true) : (a + b).toInt = a.toInt + b.toInt := by
  rw [addOverflows_iff] at h
  rw [BitVec.toInt_add, Int.bmod_eq_of_le] <;> omega

/-- The checked addition, said once (44_alu.md R170, R172). -/
theorem State.addChecked_cases (d : RegIdx) (a b : Word) :
    (addOverflows a b = true ∧ s.addChecked d a b = s.report (.arithmeticOverflow a b)) ∨
      (¬ addOverflows a b = true ∧ s.addChecked d a b = s.writeBack d (a + b)) := by
  unfold State.addChecked
  by_cases h : addOverflows a b = true
  · exact .inl ⟨h, if_pos h⟩
  · exact .inr ⟨h, if_neg h⟩

end Sys2Proof.Machine
end

