-- ==== Sys2Proof/Laws/Link.lean ====
section
/-!
SUPPORT. The laws of the link agent: what each function of the parser, the table builder and the linker can answer, said once.
-/

namespace Sys2Proof.Machine

/-! ### Records the parser builds -/

/-- A record made from fields in range is well-formed (40_assembler_syntax.md R94). -/
theorem make_wellFormed (cfg : Config) (m : Mnemonic) (v : Variant) (h1 : v.inRange = true)
    (h2 : v.agrees (m.opcode cfg).toNat = true) : (Instruction.make cfg m v).wellFormed = true := by
  simp [Instruction.wellFormed, Instruction.fieldsOk, Instruction.inSync, Instruction.make, Instruction.rederive, encode, h1, h2]

/-- A reduced literal fits its field (40_assembler_syntax.md R103). -/
theorem reduce_lt (n : Int) (w : Nat) : reduce n w < 2 ^ w := by
  unfold reduce
  have h : (0 : Int) < 2 ^ w := by positivity
  have h1 := Int.emod_lt_of_pos n h
  have h2 := Int.emod_nonneg n (ne_of_gt h)
  have : ((n % 2 ^ w).toNat : Int) < ((2 ^ w : Nat) : Int) := by push_cast; omega
  exact_mod_cast this

/-- A register operand is an index (30_encoding.md R66). -/
theorem registerOperand_lt {cfg : Config} {t : Text} {n : Nat} (h : registerOperand cfg t = .ok n) : n < 32 := by
  unfold registerOperand at h
  split at h <;> cases h
  exact BitVec.isLt _

/-- A successful computation peeled apart. -/
theorem ok_of_bind_eq_ok {ε α β : Type} {x : Except ε α} {f : α → Except ε β} {b : β} (h : (x >>= f) = .ok b) :
    ∃ a, x = .ok a ∧ f a = .ok b := by
  cases x with
  | error e => cases h
  | ok a => exact ⟨a, rfl, h⟩

/-! ### The Symbol Table -/

theorem lookupSymbol_eq_none (t : SymbolTable) (n : Text) : lookupSymbol t n = none ↔ n ∉ t.map Prod.fst := by
  induction t with
  | nil => simp [lookupSymbol]
  | cons e t ih =>
    simp only [lookupSymbol, List.map_cons, List.mem_cons, not_or]
    by_cases h : e.1 = n
    · simp [h]
    · rw [if_neg h, ih]; simp [Ne.symm h]

theorem lookupSymbol_append_of_some {t : SymbolTable} {n : Text} {a : Word} (u : SymbolTable) (h : lookupSymbol t n = some a) :
    lookupSymbol (t ++ u) n = some a := by
  induction t with
  | nil => simp [lookupSymbol] at h
  | cons e t ih =>
    simp only [lookupSymbol, List.cons_append] at h ⊢
    split at h
    · rename_i hh; rw [if_pos hh]; exact h
    · rename_i hh; rw [if_neg hh]; exact ih h

theorem lookupSymbol_append_of_none {t : SymbolTable} {n : Text} (u : SymbolTable) (h : lookupSymbol t n = none) :
    lookupSymbol (t ++ u) n = lookupSymbol u n := by
  induction t with
  | nil => rfl
  | cons e t ih =>
    simp only [lookupSymbol, List.cons_append] at h ⊢
    split at h
    · cases h
    · rename_i hh; rw [if_neg hh]; exact ih h

/-- `insert` (41_symbol_table.md R125): a new name goes to the end; a name already there fails. -/
theorem insertSymbol_eq_ok {t : SymbolTable} {n : Text} {a : Word} {u : SymbolTable} :
    insertSymbol t n a = .ok u ↔ lookupSymbol t n = none ∧ u = t ++ [(n, a)] := by
  unfold insertSymbol
  cases h : lookupSymbol t n with
  | none => simp; exact eq_comm
  | some _ => simp

/-! ### The linker -/

/-- When relocation fails (42_linker.md R131). -/
theorem relocate_eq_error {cfg : Config} {t : SymbolTable} {i : Nat} {d : Instruction} {e : LinkError} :
    relocate cfg t i d = .error e ↔ ∃ name, d.symbolicOperand = some name ∧ Variant.relocates d.variant = true ∧
      lookupSymbol t name = none ∧ e = .undefinedLabel name := by
  unfold relocate
  cases hs : d.symbolicOperand with
  | none => simp
  | some name =>
    simp only []
    by_cases hr : Variant.relocates d.variant = true
    · rw [if_pos hr]
      cases hl : lookupSymbol t name with
      | none =>
        simp only [Except.error.injEq]
        constructor
        · rintro rfl; exact ⟨name, rfl, hr, hl, rfl⟩
        · rintro ⟨n, h1, _, _, h2⟩; cases h1; exact h2.symm
      | some a =>
        simp only [reduceCtorEq, false_iff]
        rintro ⟨n, h1, _, h2, _⟩; cases h1; rw [hl] at h2; cases h2
    · rw [if_neg hr]
      constructor
      · intro h; cases h
      · rintro ⟨n, _, h2, _⟩; exact absurd h2 hr

/-- What relocation gives (42_linker.md R135, R139): the record itself, or the resolved one with its value derived anew. -/
theorem relocate_ok {cfg : Config} {t : SymbolTable} {i : Nat} {d d' : Instruction} (h : relocate cfg t i d = .ok d') :
    (d' = d ∧ (Variant.relocates d.variant = true → d.symbolicOperand = none)) ∨
      (∃ target, Variant.relocates d.variant = true ∧
        d' = Instruction.rederive { d with variant := resolveVariant cfg i d target, symbolicOperand := none }) := by
  unfold relocate at h
  split at h
  · cases h; rename_i hs; exact .inl ⟨rfl, fun _ => hs⟩
  · split at h
    · rename_i hr
      split at h
      · cases h
      · rename_i a ha; cases h; exact .inr ⟨a, hr, rfl⟩
    · rename_i hr; cases h; exact .inl ⟨rfl, fun h => absurd h hr⟩

end Sys2Proof.Machine
end

