-- ==== Sys2Proof/Laws/PerInstr.lean ====
section
/-!
SUPPORT. A law of every instruction as syntax, one lemma per constructor: in a valid configuration the record an instruction
stands for is well-formed (its fields in range, its tag agreeing with its opcode, its value in step with its fields).
-/

namespace Sys2Proof.Laws.EncodesWellFormed

/-- In every valid configuration the instruction is well-formed (10_state.md R22, R23). -/
def Statement (i : Instr) : Prop := ∀ cfg : Config, cfg.valid = true → i.wellFormed cfg = true

theorem of_reg {cfg : Config} {op : RegOp} (rs rt rd : RegIdx) (shamt : Shamt) (c : Code6) :
    (Instruction.make cfg (.reg op) (.register rs.toNat rt.toNat rd.toNat shamt.toNat c.toNat)).wellFormed = true := by
  have h1 := rs.isLt
  have h2 := rt.isLt
  have h3 := rd.isLt
  have h4 := shamt.isLt
  have h5 := c.isLt
  simp [Instruction.wellFormed, Instruction.fieldsOk, Instruction.inSync, Instruction.make, Instruction.rederive, encode,
    Variant.inRange, Variant.agrees, Mnemonic.opcode, opRegister, h1, h2, h3, h4, h5]

theorem of_imm {cfg : Config} (hv : cfg.valid = true) {op : ImmOp} (rs rt : RegIdx) (imm : Imm16) :
    (Instruction.make cfg (.imm op) (.immediate rs.toNat rt.toNat imm.toNat)).wellFormed = true := by
  have h1 := rs.isLt
  have h2 := rt.isLt
  have h3 := imm.isLt
  have h4 := (cfg.opc.code op).isLt
  obtain ⟨e0, e2, e3, e63⟩ := OpcTable.code_ne_fixed ((Config.valid_iff cfg).1 hv).2.1 op
  simp [Instruction.wellFormed, Instruction.fieldsOk, Instruction.inSync, Instruction.make, Instruction.rederive, encode,
    Variant.inRange, Variant.agrees, Mnemonic.opcode, h1, h2, h3, h4, e0, e2, e3, e63]

theorem of_jump {cfg : Config} {op : JumpOp} (address : Addr26) :
    (Instruction.make cfg (.jump op) (.jump address.toNat)).wellFormed = true := by
  have h1 := address.isLt
  cases op <;>
    simp [Instruction.wellFormed, Instruction.fieldsOk, Instruction.inSync, Instruction.make, Instruction.rederive, encode,
      Variant.inRange, Variant.agrees, Mnemonic.opcode, opJ, opJal] <;> omega

theorem sll (rs rt rd : RegIdx) (shamt : Shamt) : Statement (.sll rs rt rd shamt) := fun _ _ => of_reg rs rt rd shamt _

theorem srl (rs rt rd : RegIdx) (shamt : Shamt) : Statement (.srl rs rt rd shamt) := fun _ _ => of_reg rs rt rd shamt _

theorem jr (rs rt rd : RegIdx) (shamt : Shamt) : Statement (.jr rs rt rd shamt) := fun _ _ => of_reg rs rt rd shamt _

theorem add (rs rt rd : RegIdx) (shamt : Shamt) : Statement (.add rs rt rd shamt) := fun _ _ => of_reg rs rt rd shamt _

theorem addu (rs rt rd : RegIdx) (shamt : Shamt) : Statement (.addu rs rt rd shamt) := fun _ _ => of_reg rs rt rd shamt _

theorem sub (rs rt rd : RegIdx) (shamt : Shamt) : Statement (.sub rs rt rd shamt) := fun _ _ => of_reg rs rt rd shamt _

theorem subu (rs rt rd : RegIdx) (shamt : Shamt) : Statement (.subu rs rt rd shamt) := fun _ _ => of_reg rs rt rd shamt _

theorem and (rs rt rd : RegIdx) (shamt : Shamt) : Statement (.and rs rt rd shamt) := fun _ _ => of_reg rs rt rd shamt _

theorem or (rs rt rd : RegIdx) (shamt : Shamt) : Statement (.or rs rt rd shamt) := fun _ _ => of_reg rs rt rd shamt _

theorem nor (rs rt rd : RegIdx) (shamt : Shamt) : Statement (.nor rs rt rd shamt) := fun _ _ => of_reg rs rt rd shamt _

theorem slt (rs rt rd : RegIdx) (shamt : Shamt) : Statement (.slt rs rt rd shamt) := fun _ _ => of_reg rs rt rd shamt _

theorem sltu (rs rt rd : RegIdx) (shamt : Shamt) : Statement (.sltu rs rt rd shamt) := fun _ _ => of_reg rs rt rd shamt _

theorem beq (rs rt : RegIdx) (imm : Imm16) : Statement (.beq rs rt imm) := fun _ hv => of_imm hv rs rt imm

theorem bne (rs rt : RegIdx) (imm : Imm16) : Statement (.bne rs rt imm) := fun _ hv => of_imm hv rs rt imm

theorem addi (rs rt : RegIdx) (imm : Imm16) : Statement (.addi rs rt imm) := fun _ hv => of_imm hv rs rt imm

theorem addiu (rs rt : RegIdx) (imm : Imm16) : Statement (.addiu rs rt imm) := fun _ hv => of_imm hv rs rt imm

theorem slti (rs rt : RegIdx) (imm : Imm16) : Statement (.slti rs rt imm) := fun _ hv => of_imm hv rs rt imm

theorem sltiu (rs rt : RegIdx) (imm : Imm16) : Statement (.sltiu rs rt imm) := fun _ hv => of_imm hv rs rt imm

theorem andi (rs rt : RegIdx) (imm : Imm16) : Statement (.andi rs rt imm) := fun _ hv => of_imm hv rs rt imm

theorem ori (rs rt : RegIdx) (imm : Imm16) : Statement (.ori rs rt imm) := fun _ hv => of_imm hv rs rt imm

theorem lui (rs rt : RegIdx) (imm : Imm16) : Statement (.lui rs rt imm) := fun _ hv => of_imm hv rs rt imm

theorem lw (rs rt : RegIdx) (imm : Imm16) : Statement (.lw rs rt imm) := fun _ hv => of_imm hv rs rt imm

theorem lbu (rs rt : RegIdx) (imm : Imm16) : Statement (.lbu rs rt imm) := fun _ hv => of_imm hv rs rt imm

theorem lhu (rs rt : RegIdx) (imm : Imm16) : Statement (.lhu rs rt imm) := fun _ hv => of_imm hv rs rt imm

theorem sb (rs rt : RegIdx) (imm : Imm16) : Statement (.sb rs rt imm) := fun _ hv => of_imm hv rs rt imm

theorem sh (rs rt : RegIdx) (imm : Imm16) : Statement (.sh rs rt imm) := fun _ hv => of_imm hv rs rt imm

theorem sw (rs rt : RegIdx) (imm : Imm16) : Statement (.sw rs rt imm) := fun _ hv => of_imm hv rs rt imm

theorem ll (rs rt : RegIdx) (imm : Imm16) : Statement (.ll rs rt imm) := fun _ hv => of_imm hv rs rt imm

theorem sc (rs rt : RegIdx) (imm : Imm16) : Statement (.sc rs rt imm) := fun _ hv => of_imm hv rs rt imm

theorem j (address : Addr26) : Statement (.j address) := fun _ _ => of_jump address

theorem jal (address : Addr26) : Statement (.jal address) := fun _ _ => of_jump address

theorem halt : Statement .halt := fun _ _ => by
  simp [Instr.wellFormed, Instr.toInstruction, Instr.variant, Instr.mnemonic, Instruction.wellFormed, Instruction.fieldsOk,
    Instruction.inSync, Instruction.make, Instruction.rederive, encode, Variant.inRange, Variant.agrees, Mnemonic.opcode, opHalt]

end Sys2Proof.Laws.EncodesWellFormed
end

