-- ==== Sys2Proof/Tests/Slice0.lean ====
section
/-!
SUPPORT. The model's own tests. Expected values come from spec/95_test_vectors.md (S1 to S10, V1 to V10, P7) or are worked out by
hand from the rule named; none is an output of the model. The last part shows, for every obligation that has hypotheses, states
and operands that meet them together (`test_meets_<obligation>`).
-/

open Sys2Proof Sys2Proof.Machine

namespace Sys2Proof.Tests

/-! ### Helpers -/

/-- A running core at `pc` with the word `w` there and the registers of `presets` set. -/
def startAt (pc w : Word) (presets : List (RegIdx × Word)) : State :=
  presets.foldl (fun s p => s.writeReg p.1 p.2)
    { State.reset with pc := pc, mem := Memory.write [] pc.toNat w, runState := .running }

/-- The same core with one more memory word. -/
def withCell (s : State) (a v : Word) : State := { s with mem := s.mem.write a.toNat v }

/-- The state after one step (the state itself where there is no step). -/
def after (s : State) : State :=
  match step s with
  | .next t => t
  | .fault _ => s
  | .refused _ => s

/-- The outcome of a step is a next state. -/
def steps (s : State) : Bool :=
  match step s with
  | .next _ => true
  | .fault _ => false
  | .refused _ => false

/-- A line of source. -/
def lines (ls : List String) : List Text := ls.map String.toList

/-- The words of the one-instruction text `.text`, `line`. -/
def wordsOf (line : String) : Option (List Word) :=
  match parse Config.standard (lines [".text", line]) with
  | .ok p => some (p.instrs.map Instruction.value)
  | .error _ => none

/-- The parse error of a source text. -/
def errorOf (ls : List String) : Option ParseError :=
  match parse Config.standard (lines ls) with
  | .ok _ => none
  | .error e => some e

/-- `add $t0, $t1, $t2` as a record. -/
def addRecord : Instruction :=
  { variant := .register 9 10 8 0 0x20, opcode := 0, value := 0x012A4020, label := none, symbolicOperand := none }

/-! ### Decoding: words from V1 and V3, every constructor -/

theorem test_decode_shifts_jr : decodeTableWord 32 0x01204100 = some (.sll 9 0 8 4) ∧
    decodeTableWord 32 0x01204102 = some (.srl 9 0 8 4) ∧ decodeTableWord 32 0x03E00008 = some (.jr 31 0 0 0) := by decide

theorem test_decode_add_sub : decodeTableWord 32 0x012A4020 = some (.add 9 10 8 0) ∧
    decodeTableWord 32 0x012A4021 = some (.addu 9 10 8 0) ∧ decodeTableWord 32 0x012A4022 = some (.sub 9 10 8 0) ∧
    decodeTableWord 32 0x012A4023 = some (.subu 9 10 8 0) := by decide

theorem test_decode_bitwise : decodeTableWord 32 0x012A4024 = some (.and 9 10 8 0) ∧
    decodeTableWord 32 0x012A4025 = some (.or 9 10 8 0) ∧ decodeTableWord 32 0x012A4027 = some (.nor 9 10 8 0) := by decide

theorem test_decode_compare : decodeTableWord 32 0x012A402A = some (.slt 9 10 8 0) ∧
    decodeTableWord 32 0x012A402B = some (.sltu 9 10 8 0) ∧ decodeTableWord 32 0x2928FFFF = some (.slti 9 8 0xFFFF) ∧
    decodeTableWord 32 0x2D28FFFF = some (.sltiu 9 8 0xFFFF) := by decide

theorem test_decode_immediates : decodeTableWord 32 0x2128FFFF = some (.addi 9 8 0xFFFF) ∧
    decodeTableWord 32 0x2528FFFF = some (.addiu 9 8 0xFFFF) ∧ decodeTableWord 32 0x3128FFFF = some (.andi 9 8 0xFFFF) ∧
    decodeTableWord 32 0x3528FFFF = some (.ori 9 8 0xFFFF) ∧ decodeTableWord 32 0x3D280001 = some (.lui 9 8 1) := by decide

theorem test_decode_branches : decodeTableWord 32 0x11280001 = some (.beq 9 8 1) ∧
    decodeTableWord 32 0x1408FFFE = some (.bne 0 8 0xFFFE) := by decide

theorem test_decode_loads_stores : decodeTableWord 32 0x8D280001 = some (.lw 9 8 1) ∧
    decodeTableWord 32 0xAD28FFFF = some (.sw 9 8 0xFFFF) := by decide

theorem test_decode_unimplemented : decodeTableWord 32 0x91280000 = some (.lbu 9 8 0) ∧
    decodeTableWord 32 0x95280000 = some (.lhu 9 8 0) ∧ decodeTableWord 32 0xA1280000 = some (.sb 9 8 0) ∧
    decodeTableWord 32 0xA5280000 = some (.sh 9 8 0) ∧ decodeTableWord 32 0xC1280000 = some (.ll 9 8 0) ∧
    decodeTableWord 32 0xE1280000 = some (.sc 9 8 0) := by decide

theorem test_decode_jumps_halt : decodeTableWord 32 0x08400003 = some (.j 0x0400003) ∧
    decodeTableWord 32 0x0C400004 = some (.jal 0x0400004) ∧ decodeTableWord 32 0xFFFFFFFF = some .halt ∧
    decodeTableWord 32 0xFC000000 = some .halt := by decide

/-- V1: undefined encodings are rejected by name, and no neighbour takes them. -/
theorem test_decode_undefined :
    decodeWord Config.standard 0x0000000C = .error (.undefinedEncoding 0x0000000C) ∧
    decodeWord Config.standard 0x04000000 = .error (.undefinedEncoding 0x04000000) ∧
    decodeWord Config.standard 0x80000000 = .error (.undefinedEncoding 0x80000000) ∧
    decodeWord Config.standard 0xFBFFFFFF = .error (.undefinedEncoding 0xFBFFFFFF) := by decide

/-- V1: an ignored field is kept, and the all-zero word is `sll`. -/
theorem test_decode_keeps_fields : decodeTableWord 32 0x012A47E0 = some (.add 9 10 8 31) ∧
    decodeTableWord 32 0x00000000 = some (.sll 0 0 0 0) := by decide

/-- S2: bit-field extraction. -/
theorem test_bits : bits 0x03E00000 25 21 = 31 ∧ bits 0x03E00000 20 16 = 0 ∧ bits 0x00000020 5 5 = 1 ∧
    bits 0xFFFFFFDF 5 5 = 0 ∧ bits 0xFFFFFFFF 31 0 = 0xFFFFFFFF ∧ bits 0xFFFFFFFF 31 26 = 0x3F := by decide

/-- V2: encode reduces over-wide fields. -/
theorem test_encode_reduces : encodeVariant 0 (.register 41 10 8 0 0x20) = 0x012A4020 ∧
    encodeVariant 8 (.immediate 8 8 0x1FFFF) = 0x2108FFFF ∧ encodeVariant 2 (.jump 0x10000000) = 0x08000000 ∧
    encodeVariant 0x3F .halt = 0xFFFFFFFF := by decide

/-- S1: the tags and fields of two words. -/
theorem test_decode_records : decode 0x012A4020 = addRecord ∧
    (decode 0x2108FFFF).variant = .immediate 8 8 0xFFFF ∧ (decode 0x2108FFFF).opcode = 8 := by decide

/-- R65, R66: absence is distinct from 0. -/
theorem test_lookups : regIndex Config.standard "$t0".toList = some 8 ∧ regIndex Config.standard "$zero".toList = some 0 ∧
    regIndex Config.standard "$8".toList = none ∧ opcodeOfName Config.standard "add".toList = some 0 ∧
    opcodeOfName Config.standard "mul".toList = none ∧ funcOfName Config.standard "sltu".toList = some 0x2B ∧
    funcOfName Config.standard "lw".toList = none := by decide

/-- R65: the reverse maps; a value that is not listed is absent. -/
theorem test_reverse_lookups : mnemonicOfOpcode Config.standard 0x02 = some (.jump .j) ∧
    mnemonicOfOpcode Config.standard 0x03 = some (.jump .jal) ∧ mnemonicOfOpcode Config.standard 0x3F = some .halt ∧
    mnemonicOfOpcode Config.standard 0x04 = some (.imm .beq) ∧ mnemonicOfOpcode Config.standard 0x01 = none ∧
    mnemonicOfFunc Config.standard 0x2B = some (.reg .sltu) ∧ mnemonicOfFunc Config.standard 0x01 = none ∧
    JumpOp.ofOpcode 0x04 = none := by decide

/-! ### What the well-formedness checks refuse -/

/-- The standard parameters with `beq` at opcode 0, which is the Register format's. -/
def badOpc : Config := { Config.standard with opc := { OpcTable.standard with beq := 0 } }

theorem test_refuses_wide_field : Variant.inRange (.register 32 0 0 0 0) = false ∧
    Variant.inRange (.immediate 0 0 0x10000) = false ∧ Variant.inRange (.jump 0x4000000) = false := by decide

theorem test_refuses_wrong_tag : Variant.agrees 8 (.register 9 10 8 0 0x20) = false ∧
    Variant.agrees 0x3F (.immediate 0 0 0) = false ∧ Variant.agrees 4 (.jump 0) = false ∧ Variant.agrees 0 .halt = false := by decide

theorem test_refuses_stale_value : Instruction.inSync { addRecord with value := 0x012A4021 } = false ∧
    Instruction.wellFormed { addRecord with value := 0x012A4021 } = false := by decide

theorem test_refuses_bad_fields : Instruction.fieldsOk { addRecord with opcode := 8 } = false := by decide

theorem test_refuses_beq_at_opcode_zero : Instr.wellFormed badOpc (.beq 1 2 3) = false ∧
    badOpc.opc.avoidsFixed = false ∧ badOpc.valid = false := by decide

theorem test_refuses_shared_opcode : OpcTable.injective { OpcTable.standard with bne := 0x04 } = false := by decide

theorem test_refuses_shared_function : FuncTable.injective { FuncTable.standard with srl := 0x00 } = false := by decide

theorem test_refuses_shared_name : Config.namesDistinct { Config.standard with regNames := Vector.replicate 32 "$x".toList } = false := by
  decide

theorem test_refuses_bad_memory : Memory.wf [(5, 1), (4, 1)] = false ∧ Memory.wf [(5, 1), (5, 2)] = false ∧
    Memory.wf [(5, 0)] = false ∧ Memory.wf [(0x7FFFFFFD, 1)] = false ∧ Memory.wf [(0x7FFFFFFC, 1)] = true := by decide

theorem test_accepts_standard : Config.standard.valid = true ∧ addRecord.wellFormed = true := by decide

/-! ### One step of each instruction: V8 -/

theorem test_add : (after (startAt 0x00400000 0x012A4020 [(9, 0x7FFFFFFF), (10, 0x80000000)])).readReg 8 = 0xFFFFFFFF := by decide

theorem test_add_overflow :
    (after (startAt 0x00400000 0x012A4020 [(9, 0x7FFFFFFF), (10, 1), (8, 0xAAAA)])).readReg 8 = 0xAAAA ∧
    (after (startAt 0x00400000 0x012A4020 [(9, 0x7FFFFFFF), (10, 1), (8, 0xAAAA)])).diag =
      [{ pc := 0x00400000, condition := .arithmeticOverflow 0x7FFFFFFF 1 }] := by decide

theorem test_addu : (after (startAt 0x00400000 0x012A4021 [(9, 0x7FFFFFFF), (10, 1)])).readReg 8 = 0x80000000 := by decide

theorem test_addi : (after (startAt 0x00400000 0x21288000 [])).readReg 8 = 0xFFFF8000 := by decide

theorem test_addi_overflow :
    (after (startAt 0x00400000 0x2128FFFF [(9, 0x80000000), (8, 0xAAAA)])).readReg 8 = 0xAAAA ∧
    (after (startAt 0x00400000 0x2128FFFF [(9, 0x80000000), (8, 0xAAAA)])).diag =
      [{ pc := 0x00400000, condition := .arithmeticOverflow 0x80000000 0xFFFFFFFF }] := by decide

theorem test_addiu : (after (startAt 0x00400000 0x25288000 [(9, 0x80000000)])).readReg 8 = 0x7FFF8000 := by decide

theorem test_and : (after (startAt 0x00400000 0x012A4024 [(9, 0xFF00FF00), (10, 0x0FF00FF0)])).readReg 8 = 0x0F000F00 := by decide

theorem test_or : (after (startAt 0x00400000 0x012A4025 [(9, 0xFF00FF00), (10, 0x0FF00FF0)])).readReg 8 = 0xFFF0FFF0 := by decide

theorem test_nor : (after (startAt 0x00400000 0x012A4027 [(9, 0xFF00FF00), (10, 0x0FF00FF0)])).readReg 8 = 0x000F000F := by decide

theorem test_andi : (after (startAt 0x00400000 0x3128FFFF [(9, 0x12345678)])).readReg 8 = 0x00005678 := by decide

theorem test_ori : (after (startAt 0x00400000 0x35288000 [])).readReg 8 = 0x00008000 := by decide

theorem test_slt : (after (startAt 0x00400000 0x012A402A [(9, 0x80000000), (10, 0x7FFFFFFF)])).readReg 8 = 1 := by decide

theorem test_slti : (after (startAt 0x00400000 0x2928FFFF [(8, 9)])).readReg 8 = 0 := by decide

theorem test_sltu : (after (startAt 0x00400000 0x012A402B [(9, 0x80000000), (10, 0x7FFFFFFF), (8, 9)])).readReg 8 = 0 := by decide

theorem test_sltiu : (after (startAt 0x00400000 0x2D28FFFF [(9, 5)])).readReg 8 = 1 := by decide

theorem test_sll : (after (startAt 0x00400000 0x01204100 [(9, 0xF000000F)])).readReg 8 = 0x000000F0 := by decide

/-- V8: a foreign shift word shifts the rs field's register, not the rt field's. -/
theorem test_sll_foreign : (after (startAt 0x00400000 0x00094100 [(9, 0xF), (8, 9)])).readReg 8 = 0 := by decide

theorem test_srl : (after (startAt 0x00400000 0x012047C2 [(9, 0x80000000)])).readReg 8 = 1 := by decide

theorem test_sub : (after (startAt 0x00400000 0x012A4022 [(9, 0x80000000), (10, 1)])).readReg 8 = 0x7FFFFFFF ∧
    (after (startAt 0x00400000 0x012A4022 [(9, 0x80000000), (10, 1)])).diag = [] := by decide

theorem test_subu : (after (startAt 0x00400000 0x012A4023 [(10, 1)])).readReg 8 = 0xFFFFFFFF := by decide

theorem test_lui : (after (startAt 0x00400000 0x3D280001 [(9, 0x55)])).readReg 8 = 0x00010000 := by decide

/-- P4: register 0 is written. -/
theorem test_register_zero : (after (startAt 0x00400003 0x20000007 [])).readReg 0 = 7 := by decide

/-! ### Loads and stores: V9, P7 -/

theorem test_lw : (after (startAt 0x00400000 0x8D28FFFF [(9, 0x00400001)])).readReg 8 = 0x8D28FFFF := by decide

theorem test_lw_range :
    (after (startAt 0x00400000 0x8C08FFFF [(8, 5)])).runState = .faulted (.memoryRange 0xFFFFFFFF) ∧
    (after (startAt 0x00400000 0x8C08FFFF [(8, 5)])).pc = 0x00400000 ∧
    (after (startAt 0x00400000 0x8C08FFFF [(8, 5)])).readReg 8 = 5 := by decide

theorem test_sw :
    (after (startAt 0x00400000 0xAD28FFFF [(9, 0x10000001), (8, 0xDEADBEEF)])).memRead 0x10000000 = some 0xDEADBEEF := by decide

theorem test_sw_range :
    (after (startAt 0x00400002 0xAD080000 [(8, 0x7FFFFFFC)])).memRead 0x7FFFFFFC = some 0x7FFFFFFC ∧
    (after (startAt 0x00400004 0xAD080001 [(8, 0x7FFFFFFC)])).runState = .faulted (.memoryRange 0x7FFFFFFD) := by decide

theorem test_lbu : (after (startAt 0x00400000 0x91280000 [(8, 7)])).diag =
    [{ pc := 0x00400000, condition := .unsupportedInstruction 0x91280000 }] := by decide

theorem test_lhu : (after (startAt 0x00400000 0x95280000 [(8, 7)])).diag =
    [{ pc := 0x00400000, condition := .unsupportedInstruction 0x95280000 }] := by decide

theorem test_sb : (after (startAt 0x00400000 0xA1280000 [(8, 7)])).diag =
    [{ pc := 0x00400000, condition := .unsupportedInstruction 0xA1280000 }] := by decide

theorem test_sh : (after (startAt 0x00400000 0xA5280000 [(8, 7)])).diag =
    [{ pc := 0x00400000, condition := .unsupportedInstruction 0xA5280000 }] := by decide

theorem test_ll : (after (startAt 0x00400000 0xC1280000 [(8, 7)])).diag =
    [{ pc := 0x00400000, condition := .unsupportedInstruction 0xC1280000 }] := by decide

theorem test_sc : (after (startAt 0x00400000 0xE1280000 [(8, 7), (9, 0x10000000)])).diag =
    [{ pc := 0x00400000, condition := .unsupportedInstruction 0xE1280000 }] ∧
    (after (startAt 0x00400000 0xE1280000 [(8, 7), (9, 0x10000000)])).readReg 8 = 7 := by decide

/-- V1: an undefined encoding is reported and the run goes on at the next word. -/
theorem test_undefined :
    (after (startAt 0x00400000 0x0000000C [])).diag =
      [{ pc := 0x00400000, condition := .unsupportedInstruction 0x0000000C }] ∧
    (after (startAt 0x00400000 0x0000000C [])).pc = 0x00400001 := by decide

/-- P3: with RUNTIME_FATAL the report ends the run with the pc at the instruction. -/
theorem test_runtime_fatal :
    (after { startAt 0x00400003 0x012A4020 [(9, 0x7FFFFFFF), (10, 1)] with
        cfg := { Config.standard with runtimeFatal := true } }).runState =
      .faulted (.reported (.arithmeticOverflow 0x7FFFFFFF 1)) ∧
    (after { startAt 0x00400003 0x012A4020 [(9, 0x7FFFFFFF), (10, 1)] with
        cfg := { Config.standard with runtimeFatal := true } }).pc = 0x00400003 := by decide

/-! ### Control transfer: V10 -/

theorem test_beq : (after (startAt 0x00400000 0x11280001 [(8, 4), (9, 4)])).pc = 0x00400002 ∧
    (after (startAt 0x00400000 0x11280001 [(8, 4), (9, 5)])).pc = 0x00400001 := by decide

theorem test_bne : (after (startAt 0x00400001 0x1408FFFE [(8, 2)])).pc = 0x00400000 ∧
    (after (startAt 0x00400001 0x1408FFFE [])).pc = 0x00400002 := by decide

theorem test_j : (after (startAt 0x04000010 0x08400003 [])).pc = 0x04400003 ∧
    (after (startAt 0x00400003 0x08000006 [])).pc = 0x00000006 := by decide

theorem test_jal : (after (startAt 0x00400001 0x0C400004 [])).pc = 0x00400004 ∧
    (after (startAt 0x00400001 0x0C400004 [])).readReg 31 = 0x00400002 := by decide

theorem test_jr : (after (startAt 0x00400000 0x01000008 [(8, 0x10000000)])).pc = 0x10000000 := by decide

theorem test_halt : (after (startAt 0x00400002 0xFFFFFFFF [])).runState = .halted .sentinel ∧
    (after (startAt 0x00400002 0xFFFFFFFF [])).pc = 0x00400002 := by decide

/-! ### The run loop, reset and the host -/

/-- V10: the word at STATIC_DATA_BASE is never executed. -/
theorem test_range_exhausted : (after (startAt 0x10000000 0xFFFFFFFF [])).runState = .halted .rangeExhausted ∧
    (after (startAt 0x0FFFFFFF 0x00000000 [])).pc = 0x10000000 := by decide

theorem test_out_of_fuel : (after { startAt 0x00400000 0xFFFFFFFF [] with fuel := some 0 }).runState = .outOfFuel ∧
    (after { startAt 0x00400000 0x00000000 [] with fuel := some 5 }).fuel = some 4 := by decide

theorem test_no_step : step State.reset = .fault .idle ∧
    step (after (startAt 0x00400002 0xFFFFFFFF [])) = .fault .ended := ⟨rfl, rfl⟩

theorem test_reset_memory : Memory.wf State.reset.mem = true ∧ State.reset.memRead 0x7FFFFFFC = some 0 ∧
    State.reset.memRead 0x7FFFFFFD = none := by decide

/-- A write of zero takes the cell out of the list again. -/
theorem test_memory_canonical : Memory.write (Memory.write [] 5 7) 5 0 = [] ∧
    Memory.write (Memory.write [] 5 7) 3 1 = [(3, 1), (5, 7)] := by decide

theorem test_fetch_word : (after (State.reset.withFetchWord 32 0x21280001)).readReg 8 = 1 ∧
    (after (State.reset.withFetchWord 32 0x21280001)).pc = 0x00400001 := by decide

/-- R152: Run makes an idle core run; a running core takes no host action, not Reset either; Reset leaves a terminal state. -/
theorem test_host : hostAct .run State.reset = .done { State.reset with runState := .running } ∧
    hostAct .run (startAt 0x00400000 0 []) = .refused .running ∧
    hostAct .reset (startAt 0x00400000 0 []) = .refused .running ∧
    hostAct .reset (after (startAt 0x00400000 0xFFFFFFFF [])) = .done State.reset ∧
    hostAct .run (after (startAt 0x00400000 0xFFFFFFFF [])) = .refused .notIdle := ⟨rfl, rfl, rfl, rfl, rfl⟩

/-- V7: a small Load. -/
theorem test_load : (State.reset.loadProgram { bin := [0x8D280001, 0xFFFFFFFF], staticData := [1, 2, 3] }).map State.mem =
    .ok [(0x00400000, 0x8D280001), (0x00400001, 0xFFFFFFFF), (0x10000000, 1), (0x10000001, 2), (0x10000002, 3)] := by decide

/-- R32: the regions. -/
theorem test_regions : regionOf Config.standard 0x003FFFFF = some .belowText ∧ regionOf Config.standard 0x00400000 = some .text ∧
    regionOf Config.standard 0x0FFFFFFF = some .text ∧ regionOf Config.standard 0x10000000 = some .staticData ∧
    regionOf Config.standard 0x10008000 = some .dynamic ∧ regionOf Config.standard 0x7FFFFFFC = some .dynamic ∧
    regionOf Config.standard 0x7FFFFFFD = some .beyond := by decide

/-- R256: the observer is handed the fetched word, the sentinel too, and nothing where nothing is fetched. -/
theorem test_observer : (observation (startAt 0x00400002 0xFFFFFFFF [])).map Observation.pc = some 0x00400002 ∧
    (observation (startAt 0x00400002 0xFFFFFFFF [])).map Observation.decoded = some (decode 0xFFFFFFFF) ∧
    (observation (startAt 0x10000000 0xFFFFFFFF [])).map Observation.pc = none := by decide

/-! ### The parser: V3, V4, S6, S10 -/

theorem test_parse_words : wordsOf "add $t0, $t1, $t2" = some [0x012A4020] ∧ wordsOf "add $t0 $t1 $t2" = some [0x012A4020] ∧
    wordsOf "sll $t0, $t1, 36" = some [0x01204100] ∧ wordsOf "jr $ra" = some [0x03E00008] := by decide

theorem test_parse_more_words : wordsOf "addi $t0, $t1, -1" = some [0x2128FFFF] ∧ wordsOf "lui $t0, 4096" = some [0x3C081000] ∧
    wordsOf "lui $t0, $t1, 1" = some [0x3D280001] ∧ wordsOf "sw $t0, -1($t1)" = some [0xAD28FFFF] := by decide

theorem test_parse_control_words : wordsOf "j 4194307" = some [0x08400003] ∧ wordsOf "beq $t0, $t1, 1" = some [0x11280001] ∧
    wordsOf "halt" = some [0xFFFFFFFF] := by decide

theorem test_parse_counts : errorOf [".text", "add $t0, $t1"] = some (.argumentCountMismatch (lines ["add", "$t0", "$t1"])) ∧
    errorOf [".text", "halt $t0"] = some (.argumentCountMismatch (lines ["halt", "$t0"])) := by decide

theorem test_parse_lookups : errorOf [".text", "mul $t0, $t1, $t2"] = some (.lookupFailure "mul".toList) ∧
    errorOf [".text", "add $t0, $t1, $8"] = some (.lookupFailure "$8".toList) ∧
    errorOf [".text", "ADD $t0, $t1, $t2"] = some (.lookupFailure "ADD".toList) := by decide

theorem test_parse_operands : errorOf [".text", "lw $t0, 4$t1"] = some (.malformedOperand "4$t1".toList) ∧
    errorOf [".text", "lw $t0, arr($t1)"] = some (.malformedOperand "arr($t1)".toList) ∧
    errorOf [".text", "sll $t0, $t1, $t2"] = some (.malformedOperand "$t2".toList) ∧
    errorOf [".text", "addi $t0, $t1, 0x10"] = some (.malformedOperand "0x10".toList) := by decide

theorem test_parse_data_errors : errorOf [".data", "arr: .half 1"] = some (.malformedStaticData "arr: .half 1".toList) ∧
    errorOf [".data", ".word 1, 2"] = some (.malformedStaticData ".word 1, 2".toList) ∧
    errorOf [".data", "arr: .word"] = some (.malformedStaticData "arr: .word".toList) := by decide

/-- V4; the lines that the errors of `a:` then `b: halt`, and of a label at the end, carry are the model's choice (log 33). -/
theorem test_parse_statement_errors :
    errorOf ["add $t0, $t1, $t2"] = some (.malformedStatement "add $t0, $t1, $t2".toList) ∧
    errorOf [".text", "a:", "b: halt"] = some (.malformedStatement "b: halt".toList) ∧
    errorOf [".text", "halt", "a:"] = some (.malformedStatement "a:".toList) ∧
    errorOf [".text", "addi $t0, $zero, -x"] = none := by decide

/-- R91: a comma beside the colon is a space. -/
theorem test_parse_commas_at_label : wordsOf "loop,: halt" = some [0xFFFFFFFF] ∧ wordsOf ", loop: halt" = some [0xFFFFFFFF] ∧
    parseData ", a ,: .word 1".toList = .ok { label := "a".toList, words := [1] } := by decide

/-- The model's choice of log 29: the second of two labels on one line is read as a mnemonic. -/
theorem test_parse_two_labels_on_one_line : errorOf [".text", "a: b: halt"] = some (.lookupFailure "b:".toList) := by decide

/-- S10, with the double quote of `quoteChar`. -/
theorem test_parse_asciiz :
    parseData ("msg: .asciiz ".toList ++ [quoteChar, 'H', 'i', quoteChar]) =
      .ok { label := "msg".toList, words := [72, 105, 0] } := by decide

/-! ### The table and the linker: V5, V6, S7, S9 -/

/-- The source of V5, with the two words of `m` written as literals. -/
def sourceV5 : List Text := lines [".data", "a: .word 1, 2, 3", "m: .word 72, 105, 0", "z: .space 0", "e: .space 2", "f: .word -1",
  ".text", "addi $t0, $zero, m", "ori $t1, $zero, f", "lui $t2, a", "j e", "halt"]

theorem test_link_v5 : assemble Config.standard sourceV5 =
    .ok { bin := [0x20080003, 0x34090008, 0x3C0A0000, 0x08000006, 0xFFFFFFFF],
          staticData := [1, 2, 3, 0x48, 0x69, 0, 0, 0, 0xFFFFFFFF] } := by decide

theorem test_link_scenario_b :
    assemble Config.standard (lines [".text", "loop: addi $t0, $t0, -1", "bne $t0, $zero, loop", "halt"]) =
      .ok { bin := [0x2108FFFF, 0x1408FFFE, 0xFFFFFFFF], staticData := [] } := by decide

theorem test_link_errors :
    assemble Config.standard (lines [".text", "j missing_label"]) = .error (.link (.undefinedLabel "missing_label".toList)) ∧
    assemble Config.standard (lines [".data", "a: .word 1", ".text", "a: halt"]) = .error (.link (.duplicateLabel "a".toList)) := by
  decide

/-- The branch of V6 to a label too far for its field: `link_fits` is false, and the field is reduced. -/
def farBranch : Protogram :=
  { instrs := [{ variant := .immediate 0 0 0, opcode := 4, value := 0x10000000, label := none, symbolicOperand := some "d".toList }]
    data := [{ label := "d".toList, words := [1] }] }

theorem test_link_far_branch : linkFits Config.standard farBranch [("d".toList, 0x10000000)] = false ∧
    (link Config.standard farBranch [("d".toList, 0x10000000)]).map Program.bin = .ok [0x1000FFFF] := by decide

/-- R140: bits 31:26 of a jump's target and of its own address, at the index whose address is 0 modulo 2^32. -/
theorem test_link_jump_fits :
    instructionFits Config.standard [("d".toList, 0x03FFFFFF)] 0xFFC00000
      { variant := .jump 0, opcode := 2, value := 0x08000000, label := none, symbolicOperand := some "d".toList } = true ∧
    instructionFits Config.standard [("d".toList, 0x04000000)] 0xFFC00000
      { variant := .jump 0, opcode := 2, value := 0x08000000, label := none, symbolicOperand := some "d".toList } = false := by
  decide

/-! ### States and operands that meet the hypotheses of the obligations -/

/-- A running core without a log and without FUEL, its memory in canonical form, meets the invariant. -/
theorem running_inv {s : State} (hm : Memory.wf s.mem = true) (hr : s.runState = .running) (hd : s.diag = []) (hf : s.fuel = none)
    (hc : s.cfg.fuel = none) : s.Inv := by
  constructor <;> simp_all

theorem test_meets_DecodeOfEncodeIsTheInstruction : Config.standard.valid = true := by decide

theorem test_meets_RecordCodecRoundTrips : addRecord.wellFormed = true ∧ bits 0xFBFFFFFF 31 26 ≠ 0x3F ∧
    (bits 0xFC000000 31 26 = 0x3F ∧ (0xFC000000 : Word) ≠ 0xFFFFFFFF) := by decide

theorem test_meets_DecoderFollowsOperationSelection :
    decodeWord Config.standard 0xFBFFFFFF = .error (.undefinedEncoding 0xFBFFFFFF) ∧
    decodeWord Config.standard 0x012A4020 = .ok (.add 9 10 8 0) := by decide

theorem test_meets_EncodeOfDecodedWordIsTheWord :
    decodeWord Config.standard 0xE3FFFFFF = .ok (.sc 31 31 0xFFFF) ∧ bits 0xE3FFFFFF 31 26 ≠ 0x3F := by decide

theorem test_meets_MnemonicTablesAreBidirectional : Config.standard.valid = true ∧
    ∀ m : Mnemonic, m.spelling ≠ "mul".toList := by
  refine ⟨by decide, fun m h => ?_⟩
  cases m with
  | reg op => cases op <;> revert h <;> decide
  | imm op => cases op <;> revert h <;> decide
  | jump op => cases op <;> revert h <;> decide
  | halt => revert h; decide

theorem test_meets_RegisterNamesLookUpBack : Config.standard.namesDistinct = true ∧ regIndex Config.standard [] = none := by decide

theorem test_meets_ResetLeavesTheListedValues : (0x7FFFFFFC : Word).toNat < 0x7FFFFFFD := by decide

theorem test_meets_StepKeepsTheInvariant : (startAt 0x00400000 0x012A4020 []).Inv ∧
    step (startAt 0x00400000 0x012A4020 []) = .next (after (startAt 0x00400000 0x012A4020 [])) :=
  ⟨running_inv (by decide) rfl rfl rfl rfl, rfl⟩

theorem failed_load {p : Program} {e : LoadError} (h : loadCheck p = some e) :
    hostAct (.load p) State.reset = .loadFailed e State.reset.useLoad := by
  simp [hostAct, hostActAtRest, State.hostLoad, State.loadProgram, h, State.reset, State.resetWith]

/-- The least data segment that Load rejects. -/
theorem test_meets_HostActsOnIdleCoresOnly_failing :
    loadCheck { bin := [], staticData := List.replicate 0x8001 0 } = some (.dataTooLarge 0x10000000 0x8001) := by
  unfold loadCheck
  rw [show dynamicBase - staticDataBase = 0x8000 from rfl]
  simp only [List.length_nil, List.length_replicate]
  rfl

theorem test_meets_HostActionsKeepTheInvariant : State.reset.Inv ∧ hostAct .run State.reset = .done State.reset.startRun ∧
    hostAct (.load { bin := [], staticData := List.replicate 0x8001 0 }) State.reset =
      .loadFailed (.dataTooLarge 0x10000000 0x8001) State.reset.useLoad := by
  refine ⟨?_, rfl, ?_⟩
  · constructor <;> simp [State.reset, State.resetWith, Config.standard, textBase]
  · exact failed_load test_meets_HostActsOnIdleCoresOnly_failing

/-- The pc at the last address that is fetched from. -/
theorem test_meets_StepRunsTheDecodedInstruction :
    (startAt 0x0FFFFFFF 0x012A4020 []).runState = .running ∧ (startAt 0x0FFFFFFF 0x012A4020 []).fuel ≠ some 0 ∧
    (startAt 0x0FFFFFFF 0x012A4020 []).pc.toNat < 0x10000000 ∧
    (startAt 0x0FFFFFFF 0x012A4020 []).memRead (startAt 0x0FFFFFFF 0x012A4020 []).pc = some 0x012A4020 ∧
    decodeWord (startAt 0x0FFFFFFF 0x012A4020 []).cfg 0x012A4020 = .ok (.add 9 10 8 0) := by decide

theorem test_meets_UndefinedEncodingIsReported :
    (startAt 0x0FFFFFFF 0xFBFFFFFF []).runState = .running ∧ (startAt 0x0FFFFFFF 0xFBFFFFFF []).fuel ≠ some 0 ∧
    (startAt 0x0FFFFFFF 0xFBFFFFFF []).pc.toNat < 0x10000000 ∧
    (startAt 0x0FFFFFFF 0xFBFFFFFF []).memRead (startAt 0x0FFFFFFF 0xFBFFFFFF []).pc = some 0xFBFFFFFF ∧
    opOf (startAt 0x0FFFFFFF 0xFBFFFFFF []).cfg (decode 0xFBFFFFFF) = none := by decide

theorem test_meets_RunEndsLeaveTheRestUnchanged :
    (startAt 0x10000000 0 []).runState = .running ∧ ({ startAt 0x10000000 0 [] with fuel := some 0 } : State).fuel = some 0 ∧
    ((startAt 0x10000000 0 []).fuel ≠ some 0 ∧ 0x10000000 ≤ (startAt 0x10000000 0 []).pc.toNat) ∧
    ((startAt 0x0FFFFFFF 0xFC000001 []).fuel ≠ some 0 ∧ (startAt 0x0FFFFFFF 0xFC000001 []).pc.toNat < 0x10000000 ∧
      (startAt 0x0FFFFFFF 0xFC000001 []).memRead (startAt 0x0FFFFFFF 0xFC000001 []).pc = some 0xFC000001 ∧
      bits 0xFC000001 31 26 = 0x3F) := by decide

theorem test_meets_ExactlyRunningCoresStep : ({ State.reset with runState := .outOfFuel } : State).runState.ended = true ∧
    steps (startAt 0x00400000 0 []) = true := by decide

/-- The first address outside the array. -/
theorem test_meets_OnlyDataAccessesRaiseMemoryRange :
    step (startAt 0x00400004 0xAD080001 [(8, 0x7FFFFFFC)]) = .next (after (startAt 0x00400004 0xAD080001 [(8, 0x7FFFFFFC)])) ∧
    (after (startAt 0x00400004 0xAD080001 [(8, 0x7FFFFFFC)])).runState = .faulted (.memoryRange 0x7FFFFFFD) := ⟨rfl, rfl⟩

theorem test_meets_StepLogsAtMostOnceAndPrecisely :
    step (startAt 0x00400000 0x91280000 []) = .next (after (startAt 0x00400000 0x91280000 [])) := rfl

theorem test_meets_LogIsNotObservable :
    SameButDiag (startAt 0x00400000 0x012A4020 [])
      { startAt 0x00400000 0x012A4020 [] with diag := [{ pc := 0, condition := .unsupportedInstruction 1 }] } :=
  ⟨rfl, rfl, rfl, rfl, rfl, rfl, rfl⟩

theorem test_meets_StepKeepsTheParameters :
    step (startAt 0x00400000 0x012A4020 []) = .next (after (startAt 0x00400000 0x012A4020 [])) := rfl

theorem test_meets_FuelEndsEveryRun : ({ startAt 0x00400000 0 [] with fuel := some 3 } : State).runState = .running ∧
    ({ startAt 0x00400000 0 [] with fuel := some 3 } : State).fuel = some 3 := ⟨rfl, rfl⟩

/-- The last pc whose next word is still fetched. -/
theorem test_meets_StoreToTheNextPcIsExecuted :
    (startAt 0x0FFFFFFE 0xAD280000 [(9, 0x0FFFFFFF)]).Inv ∧
    (startAt 0x0FFFFFFE 0xAD280000 [(9, 0x0FFFFFFF)]).runState = .running ∧
    (startAt 0x0FFFFFFE 0xAD280000 [(9, 0x0FFFFFFF)]).fuel ≠ some 0 ∧
    (startAt 0x0FFFFFFE 0xAD280000 [(9, 0x0FFFFFFF)]).fuel ≠ some 1 ∧
    (startAt 0x0FFFFFFE 0xAD280000 [(9, 0x0FFFFFFF)]).pc.toNat + 1 < 0x10000000 ∧
    decodeWord (startAt 0x0FFFFFFE 0xAD280000 [(9, 0x0FFFFFFF)]).cfg
      (Memory.read (startAt 0x0FFFFFFE 0xAD280000 [(9, 0x0FFFFFFF)]).mem 0x0FFFFFFE) = .ok (.sw 9 8 0) ∧
    (startAt 0x0FFFFFFE 0xAD280000 [(9, 0x0FFFFFFF)]).effectiveAddress 9 0 = 0x0FFFFFFE + 1 ∧
    steps (startAt 0x0FFFFFFE 0xAD280000 [(9, 0x0FFFFFFF)]) = true :=
  ⟨running_inv (by decide) rfl rfl rfl rfl, by decide⟩

theorem test_meets_PcAdvancesUnlessRedirected :
    (startAt 0x00400000 0 []).runState = .running ∧
    exec (.add 1 2 3 0) (startAt 0x00400000 0 []) = .next ((startAt 0x00400000 0 []).writeBack 3 0) ∧
    ((startAt 0x00400000 0 []).writeBack 3 0).runState = .running ∧
    exec (.jr 1 0 0 0) (startAt 0x00400000 0 []) = .next ((startAt 0x00400000 0 []).redirect 0) ∧
    ((startAt 0x00400000 0 []).redirect 0).runState = .running := ⟨rfl, rfl, rfl, rfl, rfl⟩

theorem test_meets_EveryInstructionKeepsItsFrame :
    exec (.jal 5) (startAt 0x00400000 0 []) =
      .next (((startAt 0x00400000 0 []).writeReg 31 0x00400001).redirect 0x00000005) ∧
    destination Config.standard (.jal 5) ≠ some 30 ∧ (∀ rs rt imm, Instr.jal 5 ≠ .sw rs rt imm) ∧
    exec (.sw 9 8 0) (startAt 0x00400000 0 [(9, 0x10000000)]) =
      .next (withCell (startAt 0x00400000 0 [(9, 0x10000000)]) 0x10000000 0).advance ∧
    (0x10000001 : Word) ≠ (startAt 0x00400000 0 [(9, 0x10000000)]).effectiveAddress 9 0 :=
  ⟨rfl, by decide, by simp, rfl, by decide⟩

theorem test_meets_OverflowComesFromAddAndAddiOnly :
    addOverflows ((startAt 0x00400000 0 [(9, 0x7FFFFFFF), (10, 1)]).readReg 9)
      ((startAt 0x00400000 0 [(9, 0x7FFFFFFF), (10, 1)]).readReg 10) = true ∧
    addOverflows ((startAt 0x00400000 0 [(9, 0x80000000)]).readReg 9) ((0xFFFF : Imm16).signExtend 32) = true ∧
    exec (.add 9 10 8 0) (startAt 0x00400000 0 [(9, 0x7FFFFFFF), (10, 1)]) =
      .next ((startAt 0x00400000 0 [(9, 0x7FFFFFFF), (10, 1)]).report (.arithmeticOverflow 0x7FFFFFFF 1)) ∧
    ((startAt 0x00400000 0 [(9, 0x7FFFFFFF), (10, 1)]).report (.arithmeticOverflow 0x7FFFFFFF 1)).diag =
      (startAt 0x00400000 0 [(9, 0x7FFFFFFF), (10, 1)]).diag ++
        [{ pc := 0x00400000, condition := .arithmeticOverflow 0x7FFFFFFF 1 }] := ⟨by decide, by decide, rfl, rfl⟩

/-- A reset core with registers 9 and 10 set. -/
def operands (a b : Word) : State := startAt 0x00400000 0 [(9, a), (10, b)]

/-- The greatest and the least sum in range, and the first ones outside it. -/
theorem test_meets_AddWritesTheSumOrReportsOverflow :
    ((operands 0x7FFFFFFE 1).readReg 9).toInt + ((operands 0x7FFFFFFE 1).readReg 10).toInt = 2147483647 ∧
    ((operands 0x80000001 0xFFFFFFFF).readReg 9).toInt + ((operands 0x80000001 0xFFFFFFFF).readReg 10).toInt = -2147483648 ∧
    ((operands 0x7FFFFFFF 1).readReg 9).toInt + ((operands 0x7FFFFFFF 1).readReg 10).toInt = 2147483648 ∧
    ((operands 0x80000000 0xFFFFFFFF).readReg 9).toInt + ((operands 0x80000000 0xFFFFFFFF).readReg 10).toInt = -2147483649 := by
  decide

theorem test_meets_AddiWritesTheSumOrReportsOverflow :
    ((operands 0x7FFF8000 0).readReg 9).toInt + (0x7FFF : Imm16).toInt = 2147483647 ∧
    ((operands 0x80000001 0).readReg 9).toInt + (0xFFFF : Imm16).toInt = -2147483648 ∧
    ((operands 0x7FFF8001 0).readReg 9).toInt + (0x7FFF : Imm16).toInt = 2147483648 ∧
    ((operands 0x80000000 0).readReg 9).toInt + (0xFFFF : Imm16).toInt = -2147483649 := by
  decide

/-- The last address of the array and the first outside it. -/
theorem test_meets_LwLoadsOrRaisesMemoryRange :
    BitVec.ofInt 32 (((startAt 0x00400000 0 [(9, 0x7FFFFFFC)]).readReg 9).toInt + (0 : Imm16).toInt) = 0x7FFFFFFC ∧
    (0x7FFFFFFC : Word).toNat < 0x7FFFFFFD ∧
    BitVec.ofInt 32 (((startAt 0x00400000 0 [(9, 0x7FFFFFFC)]).readReg 9).toInt + (1 : Imm16).toInt) = 0x7FFFFFFD ∧
    0x7FFFFFFD ≤ (0x7FFFFFFD : Word).toNat := by decide

theorem test_meets_SwStoresOrRaisesMemoryRange : Memory.wf (startAt 0x00400000 0 [(9, 0x7FFFFFFC)]).mem = true ∧
    BitVec.ofInt 32 (((startAt 0x00400000 0 [(9, 0x7FFFFFFC)]).readReg 9).toInt + (0 : Imm16).toInt) = 0x7FFFFFFC ∧
    (0x7FFFFFFC : Word).toNat < 0x7FFFFFFD ∧
    BitVec.ofInt 32 (((startAt 0x00400000 0 [(9, 0x7FFFFFFC)]).readReg 9).toInt + (1 : Imm16).toInt) = 0x7FFFFFFD ∧
    0x7FFFFFFD ≤ (0x7FFFFFFD : Word).toNat := by decide

theorem test_meets_UnimplementedInstructionsReport :
    ∀ i ∈ [Instr.lbu 31 0 0xFFFF, .lhu 31 0 0xFFFF, .sb 31 0 0xFFFF, .sh 31 0 0xFFFF, .ll 31 0 0xFFFF, .sc 31 0 0xFFFF],
      i = .lbu 31 0 0xFFFF ∨ i = .lhu 31 0 0xFFFF ∨ i = .sb 31 0 0xFFFF ∨ i = .sh 31 0 0xFFFF ∨ i = .ll 31 0 0xFFFF ∨
        i = .sc 31 0 0xFFFF := by decide

theorem test_meets_ReportedWordIsTheFetchedWord :
    step (startAt 0x00400000 0x91280000 []) = .next (after (startAt 0x00400000 0x91280000 [])) ∧
    (startAt 0x00400000 0x91280000 []).memRead 0x00400000 = some 0x91280000 ∧
    (after (startAt 0x00400000 0x91280000 [])).diag = (startAt 0x00400000 0x91280000 []).diag ++
      [{ pc := 0x00400000, condition := .unsupportedInstruction 0x91280000 }] := ⟨rfl, by decide, by decide⟩

theorem test_meets_MemoryReadsBackWhatWasWritten : Memory.wf State.reset.mem = true ∧ (0x7FFFFFFC : Word).toNat < 0x7FFFFFFD ∧
    0x7FFFFFFD ≤ (0x7FFFFFFD : Word).toNat := by decide

theorem test_meets_CanonicalMemoryIsDeterminedByItsReads : Memory.wf [(5, 7)] = true ∧
    Memory.wf (Memory.write [] 5 7) = true ∧ ∀ a, a < 0x7FFFFFFD → Memory.read [(5, 7)] a = Memory.read (Memory.write [] 5 7) a :=
  ⟨by decide, by decide, fun _ _ => rfl⟩

theorem test_meets_JrThroughTheLinkReturns :
    exec (.jal 5) (startAt 0x00400000 0 []) =
      .next (((startAt 0x00400000 0 []).writeReg 31 0x00400001).redirect 0x00000005) ∧
    (startAt 0x00400004 0 [(31, 0x00400001)]).readReg (startAt 0x00400000 0 []).cfg.ra =
      (((startAt 0x00400000 0 []).writeReg 31 0x00400001).redirect 0x00000005).readReg (startAt 0x00400000 0 []).cfg.ra :=
  ⟨rfl, by decide⟩

theorem test_meets_CommasAndSpacesParseAlike :
    splitLabel ", loop,: add $t0,$t1,$t2".toList = .ok (some "loop".toList, " add $t0,$t1,$t2".toList) := by decide

theorem test_meets_ParsedInstructionsAreWellFormed : Config.standard.valid = true ∧
    parse Config.standard (lines [".text", "add $t0, $t1, $t2"]) = .ok { instrs := [addRecord], data := [] } := by decide

theorem test_meets_ThreeRegisterStatementsMeanTheirInstruction : Config.standard.valid = true ∧
    RegOp.sltu ≠ .sll ∧ RegOp.sltu ≠ .srl ∧ RegOp.sltu ≠ .jr := by decide

/-- A Protogram with a text label and two data labels. -/
def labelled : Protogram :=
  { instrs := [addRecord, { addRecord with label := some "x".toList }]
    data := [{ label := "a".toList, words := [1, 2] }, { label := "b".toList, words := [] }] }

theorem test_meets_LabelsMapToTheirAddresses :
    buildTable labelled = .ok [("x".toList, 0x00400001), ("a".toList, 0x10000000), ("b".toList, 0x10000002)] ∧
    labelled.instrs[1]? = some { addRecord with label := some "x".toList } ∧
    labelled.data[1]? = some { label := "b".toList, words := [] } := by decide

theorem test_meets_TableExistsUnlessLabelsRepeat :
    (labelled.instrs.filterMap (fun d => d.label) ++ labelled.data.map (fun d => d.label)).Nodup := by decide

theorem test_meets_LinkFailsAtTheFirstUndefinedLabel :
    linkProtogram Config.standard farBranch [] = .error (.undefinedLabel "d".toList) := by decide

/-- The branch record of `farBranch`. -/
def branchRecord : Instruction :=
  { variant := .immediate 0 0 0, opcode := 4, value := 0x10000000, label := none, symbolicOperand := some "d".toList }

/-- The greatest and the least offset that fit. -/
theorem test_meets_LinkedBranchLandsOnItsLabel :
    branchRecord.variant = .immediate 0 0 0 ∧ isBranch Config.standard branchRecord = true ∧
    branchRecord.symbolicOperand = some "d".toList ∧
    (lookupSymbol [("d".toList, 0x00408000)] "d".toList = some 0x00408000 ∧
      ((0x00408000 : Word).toNat : Int) - (0x00400000 + 1 + ((0 : Nat) : Int)) = 32767) ∧
    (lookupSymbol [("d".toList, 0x00400001)] "d".toList = some 0x00400001 ∧
      ((0x00400001 : Word).toNat : Int) - (0x00400000 + 1 + ((0x8000 : Nat) : Int)) = -32768) := by decide

/-- The last address of the jump's own segment, at index 0 and at the index whose address is 0 modulo 2^32. -/
theorem test_meets_LinkedJumpReachesItsLabel :
    ({ branchRecord with variant := .jump 0, opcode := 2 } : Instruction).variant = .jump 0 ∧
    branchRecord.symbolicOperand = some "d".toList ∧ lookupSymbol [("d".toList, 0x03FFFFFF)] "d".toList = some 0x03FFFFFF ∧
    (0x03FFFFFF : Word).toNat / 2 ^ 26 = (0x00400000 + 0) / 2 ^ 26 % 64 ∧
    (0x03FFFFFF : Word).toNat / 2 ^ 26 = (0x00400000 + 0xFFC00000) / 2 ^ 26 % 64 := by decide

theorem test_meets_LinkedInstructionsAreResolvedAndInSync :
    (linkProtogram Config.standard farBranch [("d".toList, 0x10000000)]).isOk = true ∧
    (∀ d ∈ farBranch.instrs, d.wellFormed = true) ∧ farBranch.instrs[0]? = some branchRecord ∧
    ({ branchRecord with opcode := 8 } : Instruction).variant = .immediate 0 0 0 ∧
    isBranch Config.standard { branchRecord with opcode := 8 } = false ∧
    ({ branchRecord with opcode := 8 } : Instruction).symbolicOperand = some "d".toList ∧
    lookupSymbol [("d".toList, 0x1000FFFF)] "d".toList = some 0x1000FFFF := by decide

theorem test_meets_RelinkChangesNothing : (∀ d ∈ labelled.instrs, d.symbolicOperand = none) ∧
    (linkProtogram Config.standard farBranch [("d".toList, 0x10000000)]).isOk = true := by decide

/-- The greatest lengths that Load takes. -/
theorem test_meets_LoadPlacesTheTwoSegments : Memory.wf State.reset.mem = true ∧
    loadCheck { bin := List.replicate 0x0FC00000 0, staticData := List.replicate 0x8000 0 } = none := by
  refine ⟨rfl, ?_⟩
  unfold loadCheck
  rw [show staticDataBase - textBase = 0x0FC00000 from rfl, show dynamicBase - staticDataBase = 0x8000 from rfl]
  simp only [List.length_replicate]
  rfl

/-- V7: the lengths at the thresholds and the first beyond them. -/
theorem test_meets_LoadChecksAreOrderedAndExact :
    0x0FC00000 < (List.replicate 0x0FC00001 (0 : Word)).length ∧
    ((List.replicate 0x0FC00000 (0 : Word)).length ≤ 0x0FC00000 ∧ 0x8000 < (List.replicate 0x8001 (0 : Word)).length) ∧
    (List.replicate 0x8000 (0 : Word)).length ≤ 0x8000 := by
  simp only [List.length_replicate]; omega

theorem test_meets_HostActsOnIdleCoresOnly : (startAt 0x00400000 0 []).runState = .running ∧
    (after (startAt 0x00400000 0xFFFFFFFF [])).runState.ended = true ∧ HostAction.run ≠ .reset ∧
    State.reset.runState = .idle ∧ State.reset.loadUsed = false ∧ loadCheck { bin := [0xFFFFFFFF], staticData := [1] } = none ∧
    State.reset.useLoad.runState = .idle ∧ State.reset.useLoad.loadUsed = true := by decide

end Sys2Proof.Tests
end

section
/-!
The Symbol Table Builder: what each insertion loop answers, what it keeps of the table it is given, and where it puts each label
(41_symbol_table.md R121, R122).
-/

namespace Sys2Proof.Machine

section Insertion

variable {t u : SymbolTable} {n name : Text} {a : Word}

/-- A longer table answers what its beginning answers. -/
theorem lookupSymbol_of_isPrefix (hp : t <+: u) (h : lookupSymbol t n = some a) : lookupSymbol u n = some a := by
  obtain ⟨v, rfl⟩ := hp
  exact lookupSymbol_append_of_some v h

/-- `insert` (R125) maps the new name to the given address. -/
theorem lookupSymbol_insertSymbol (h : insertSymbol t n a = .ok u) : lookupSymbol u n = some a := by
  obtain ⟨hnew, rfl⟩ := insertSymbol_eq_ok.mp h
  rw [lookupSymbol_append_of_none _ hnew]
  exact if_pos rfl

/-- `insert` (R125) keeps the table before the new entry. -/
theorem isPrefix_insertSymbol (h : insertSymbol t n a = .ok u) : t <+: u := by
  obtain ⟨-, rfl⟩ := insertSymbol_eq_ok.mp h
  exact ⟨_, rfl⟩

/-! ### The text labels (R121) -/

theorem insertText_cons_unlabelled (t : SymbolTable) (i : Nat) {d : Instruction} (ds : List Instruction) (h : d.label = none) :
    insertText t i (d :: ds) = insertText t (i + 1) ds := by
  rw [insertText, h]

theorem insertText_cons_labelled {i : Nat} {d : Instruction} {ds : List Instruction} (hl : d.label = some name)
    (h : insertText t i (d :: ds) = .ok u) :
    ∃ v, insertSymbol t name (BitVec.ofNat 32 (textBase + i)) = .ok v ∧ insertText v (i + 1) ds = .ok u := by
  rw [insertText, hl] at h
  cases hs : insertSymbol t name (BitVec.ofNat 32 (textBase + i)) with
  | error e => simp [hs] at h
  | ok v => exact ⟨v, rfl, by simpa [hs] using h⟩

theorem isPrefix_insertText {ds : List Instruction} {i : Nat} (h : insertText t i ds = .ok u) : t <+: u := by
  induction ds generalizing t i with
  | nil => cases h; exact ⟨[], List.append_nil _⟩
  | cons d ds ih =>
    cases hl : d.label with
    | none => exact ih (insertText_cons_unlabelled t i ds hl ▸ h)
    | some name =>
      obtain ⟨v, hv, hu⟩ := insertText_cons_labelled hl h
      exact (isPrefix_insertSymbol hv).trans (ih hu)

/-- The label `j` instructions after index `i` maps to TEXT_BASE + i + j (R121). -/
theorem lookupSymbol_insertText {ds : List Instruction} {i j : Nat} {d : Instruction} (h : insertText t i ds = .ok u)
    (hd : ds[j]? = some d) (hl : d.label = some name) :
    lookupSymbol u name = some (BitVec.ofNat 32 (textBase + (i + j))) := by
  induction ds generalizing t i j with
  | nil => simp at hd
  | cons e ds ih =>
    cases j with
    | zero =>
      obtain rfl : e = d := by simpa using hd
      obtain ⟨v, hv, hu⟩ := insertText_cons_labelled hl h
      exact lookupSymbol_of_isPrefix (isPrefix_insertText hu) (lookupSymbol_insertSymbol hv)
    | succ j =>
      have rest : ∃ v, insertText v (i + 1) ds = .ok u := by
        cases he : e.label with
        | none => exact ⟨t, insertText_cons_unlabelled t i ds he ▸ h⟩
        | some m => exact (insertText_cons_labelled he h).imp fun _ => And.right
      obtain ⟨v, hv⟩ := rest
      rw [← Nat.succ_add_eq_add_succ i j]
      exact ih hv (by simpa using hd)

/-! ### The data labels (R122) -/

theorem insertData_cons {off : Nat} {d : StaticData} {ds : List StaticData} (h : insertData t off (d :: ds) = .ok u) :
    ∃ v, insertSymbol t d.label (BitVec.ofNat 32 (staticDataBase + off)) = .ok v ∧
      insertData v (off + d.words.length) ds = .ok u := by
  rw [insertData] at h
  cases hs : insertSymbol t d.label (BitVec.ofNat 32 (staticDataBase + off)) with
  | error e => simp [hs] at h
  | ok v => exact ⟨v, rfl, by simpa [hs] using h⟩

theorem isPrefix_insertData {ds : List StaticData} {off : Nat} (h : insertData t off ds = .ok u) : t <+: u := by
  induction ds generalizing t off with
  | nil => cases h; exact ⟨[], List.append_nil _⟩
  | cons d ds ih =>
    obtain ⟨v, hv, hu⟩ := insertData_cons h
    exact (isPrefix_insertSymbol hv).trans (ih hu)

/-- The label of the element at index `k` maps to STATIC_DATA_BASE plus the offset and the words of the elements before it (R122). -/
theorem lookupSymbol_insertData {ds : List StaticData} {off k : Nat} {d : StaticData} (h : insertData t off ds = .ok u)
    (hd : ds[k]? = some d) :
    lookupSymbol u d.label =
      some (BitVec.ofNat 32 (staticDataBase + (off + ((ds.take k).map fun e => e.words.length).sum))) := by
  induction ds generalizing t off k with
  | nil => simp at hd
  | cons e ds ih =>
    obtain ⟨v, hv, hu⟩ := insertData_cons h
    cases k with
    | zero =>
      obtain rfl : e = d := by simpa using hd
      exact lookupSymbol_of_isPrefix (isPrefix_insertData hu) (lookupSymbol_insertSymbol hv)
    | succ k =>
      rw [List.take_succ_cons, List.map_cons, List.sum_cons, ← Nat.add_assoc off]
      exact ih hu (by simpa using hd)

/-! ### The table of a Protogram (R120) -/

/-- A table is built by the text labels, then the data labels. -/
theorem buildTable_ok {p : Protogram} (h : buildTable p = .ok u) :
    ∃ v, insertText [] 0 p.instrs = .ok v ∧ insertData v 0 p.data = .ok u := by
  unfold buildTable at h
  cases ht : insertText [] 0 p.instrs with
  | error e => simp [ht] at h
  | ok v => exact ⟨v, rfl, by simpa [ht] using h⟩

end Insertion

/-- Settles O50: each insertion loop puts a label at its address, and no later insertion changes an entry. -/
theorem labelsMapToTheirAddresses : Obligations.LabelsMapToTheirAddresses := by
  intro p t h
  obtain ⟨v, htext, hdata⟩ := buildTable_ok h
  refine ⟨fun i d name hd hl => ?_, fun k d hd => ?_⟩
  · have hv := lookupSymbol_insertText htext hd hl
    rw [Nat.zero_add] at hv
    exact lookupSymbol_of_isPrefix (isPrefix_insertData hdata) hv
  · have hu := lookupSymbol_insertData hdata hd
    rwa [Nat.zero_add] at hu

end Sys2Proof.Machine
end

section
/-!
The Linker on a Protogram without open symbols: relocation leaves nothing open (42_linker.md R135, R141), and where nothing is open it
changes nothing and does not ask the Symbol Table (R138).
-/

namespace Sys2Proof.Machine

/-- The linker has nothing to resolve in the record: it is not one the linker acts on (R139), or it carries no symbolic operand. -/
def NothingToResolve (d : Instruction) : Prop := Variant.relocates d.variant = true → d.symbolicOperand = none

section Relocation

variable {cfg : Config} {t : SymbolTable} {i : Nat} {d d' : Instruction} {ds ds' : List Instruction} {p q : Protogram}

/-! ### One record -/

theorem relocate_eq_self (cfg : Config) (t : SymbolTable) (i : Nat) (h : NothingToResolve d) : relocate cfg t i d = .ok d := by
  unfold relocate
  cases hs : d.symbolicOperand with
  | none => rfl
  | some name =>
    have hr : ¬ Variant.relocates d.variant = true := fun hr => by simp [h hr] at hs
    exact if_neg hr

theorem nothingToResolve_of_relocate (h : relocate cfg t i d = .ok d') : NothingToResolve d' := by
  obtain ⟨rfl, hd⟩ | ⟨_, -, rfl⟩ := relocate_ok h
  · exact hd
  · exact fun _ => rfl

/-! ### The instruction list (R130) -/

theorem relocateFrom_cons_ok (h : relocateFrom cfg t i (d :: ds) = .ok ds') :
    ∃ e es, relocate cfg t i d = .ok e ∧ relocateFrom cfg t (i + 1) ds = .ok es ∧ ds' = e :: es := by
  rw [relocateFrom] at h
  cases hd : relocate cfg t i d with
  | error _ => simp [hd] at h
  | ok e =>
    cases hds : relocateFrom cfg t (i + 1) ds with
    | error _ => simp [hd, hds] at h
    | ok es => exact ⟨e, es, rfl, rfl, by simpa [hd, hds] using h.symm⟩

theorem relocateFrom_eq_self (cfg : Config) (t : SymbolTable) (i : Nat) (h : ∀ d ∈ ds, NothingToResolve d) :
    relocateFrom cfg t i ds = .ok ds := by
  induction ds generalizing i with
  | nil => rfl
  | cons d ds ih =>
    obtain ⟨hd, hds⟩ := List.forall_mem_cons.mp h
    simp only [relocateFrom, relocate_eq_self cfg t i hd, ih (i + 1) hds]

theorem nothingToResolve_of_relocateFrom (h : relocateFrom cfg t i ds = .ok ds') : ∀ d ∈ ds', NothingToResolve d := by
  induction ds generalizing i ds' with
  | nil => cases h; simp
  | cons d ds ih =>
    obtain ⟨e, es, he, hes, rfl⟩ := relocateFrom_cons_ok h
    exact List.forall_mem_cons.mpr ⟨nothingToResolve_of_relocate he, ih hes⟩

/-! ### The Protogram -/

/-- Linking replaces the instruction list by the relocated one (R135). -/
theorem linkProtogram_eq_ok :
    linkProtogram cfg p t = .ok q ↔ ∃ ds, relocateFrom cfg t 0 p.instrs = .ok ds ∧ q = { p with instrs := ds } := by
  unfold linkProtogram
  cases relocateFrom cfg t 0 p.instrs with
  | error _ => simp
  | ok ds => simp [eq_comm]

theorem linkProtogram_eq_self (cfg : Config) (t : SymbolTable) (h : ∀ d ∈ p.instrs, NothingToResolve d) :
    linkProtogram cfg p t = .ok p :=
  linkProtogram_eq_ok.mpr ⟨p.instrs, relocateFrom_eq_self cfg t 0 h, rfl⟩

theorem nothingToResolve_of_linkProtogram (h : linkProtogram cfg p t = .ok q) : ∀ d ∈ q.instrs, NothingToResolve d := by
  obtain ⟨ds, hds, rfl⟩ := linkProtogram_eq_ok.mp h
  exact nothingToResolve_of_relocateFrom hds

/-- The Program is the image of the linked Protogram (R136, R137). -/
theorem link_of_linkProtogram (h : linkProtogram cfg p t = .ok q) : link cfg p t = .ok (emit q) := by
  rw [link, h]

end Relocation

/-- Settles O56: without symbolic operands there is nothing to resolve, and after a link there is nothing left to resolve. -/
theorem relinkChangesNothing : Obligations.RelinkChangesNothing := by
  refine ⟨fun cfg p t hnone => ?_, fun cfg p q t t' hlink => ?_⟩
  · have hself : linkProtogram cfg p t = .ok p := linkProtogram_eq_self cfg t fun d hd _ => hnone d hd
    exact ⟨hself, emit p, link_of_linkProtogram hself, rfl⟩
  · exact linkProtogram_eq_self cfg t' (nothingToResolve_of_linkProtogram hlink)

end Sys2Proof.Machine
end

section
/-!
The memory after Load: where each word of the two segments stands, and that every other word is as before (43_run_loop.md R150).
-/

namespace Sys2Proof.Machine

section Load

variable {m : Memory} {s t : State} {p : Program} {v : Word} {a b k : Nat} {vs : List Word}

/-! ### Consecutive cells -/

theorem Memory.read_writeList_of_getElem? (hm : Memory.wf m = true) (ha : a + vs.length ≤ memWords) (hv : vs[k]? = some v) :
    (m.writeList a vs).read (a + k) = v := by
  rw [Memory.read_writeList hm a (a + k) vs ha, if_pos (Nat.le_add_right a k), Nat.add_sub_cancel_left, List.getD, hv]
  rfl

/-- A cell outside the range written keeps its word, in a memory of any form. -/
theorem Memory.read_writeList_of_outside (hb : ¬ (a ≤ b ∧ b < a + vs.length)) : (m.writeList a vs).read b = m.read b := by
  induction vs generalizing m a with
  | nil => rfl
  | cons v vs ih =>
    rw [List.length_cons] at hb
    have hne : b ≠ a := by omega
    rw [Memory.writeList, ih (by omega), Memory.read_write_of_ne v m hne]

/-- MemRead at an address given as a number of the array (20_memory.md R34). -/
theorem State.memRead_ofNat (s : State) (ha : a < memWords) : s.memRead (BitVec.ofNat 32 a) = some (s.mem.read a) := by
  have hnat : (BitVec.ofNat 32 a).toNat = a := Nat.mod_eq_of_lt (ha.trans (by decide))
  rw [State.memRead, hnat, if_pos ha]

theorem State.memRead_congr {a : Word} (h : t.mem.read a.toNat = s.mem.read a.toNat) : t.memRead a = s.memRead a := by
  rw [State.memRead, State.memRead, h]

/-! ### The two segments -/

/-- Where the checks of R151 pass, the program ends at or below the static data, and the data inside the array. -/
theorem segments_fit (hc : loadCheck p = none) :
    textBase + p.bin.length ≤ staticDataBase ∧ staticDataBase + p.staticData.length ≤ memWords := by
  obtain ⟨hbin, hdata⟩ := (loadCheck_eq_none p).mp hc
  simp only [textBase, staticDataBase, memWords]
  omega

theorem Memory.wf_writeList_bin (hm : Memory.wf m = true) (hc : loadCheck p = none) :
    Memory.wf (m.writeList textBase p.bin) = true :=
  Memory.wf_writeList hm _ _ ((segments_fit hc).1.trans (by decide))

theorem Memory.read_loadProgram_data (hm : Memory.wf m = true) (hc : loadCheck p = none) (hv : p.staticData[k]? = some v) :
    (m.loadProgram p).read (staticDataBase + k) = v :=
  Memory.read_writeList_of_getElem? (Memory.wf_writeList_bin hm hc) (segments_fit hc).2 hv

/-- The program's words stand below the static data, which is written after them. -/
theorem Memory.read_loadProgram_bin (hm : Memory.wf m = true) (hc : loadCheck p = none) (hv : p.bin[k]? = some v) :
    (m.loadProgram p).read (textBase + k) = v := by
  obtain ⟨hbin, hdata⟩ := segments_fit hc
  obtain ⟨hk, -⟩ := List.getElem?_eq_some_iff.mp hv
  rw [Memory.loadProgram, Memory.read_writeList_of_outside (by omega)]
  exact Memory.read_writeList_of_getElem? hm (hbin.trans (by decide)) hv

theorem Memory.read_loadProgram_of_outside (hbin : ¬ (textBase ≤ b ∧ b < textBase + p.bin.length))
    (hdata : ¬ (staticDataBase ≤ b ∧ b < staticDataBase + p.staticData.length)) : (m.loadProgram p).read b = m.read b := by
  rw [Memory.loadProgram, Memory.read_writeList_of_outside hdata, Memory.read_writeList_of_outside hbin]

end Load

/-- Settles O57: each segment's words stand where they were written, and Load writes no cell outside the two segments. -/
theorem loadPlacesTheTwoSegments : Obligations.LoadPlacesTheTwoSegments := by
  intro s p hm hc
  obtain ⟨hbin, hdata⟩ := segments_fit hc
  have hbase : staticDataBase ≤ memWords := by decide
  refine ⟨_, s.loadProgram_of_check hc, fun i w hw => ?_, fun k w hw => ?_, fun a ha ha' => ?_, fun _ => rfl, rfl,
    rfl, rfl, rfl, rfl, rfl⟩
  · obtain ⟨hi, -⟩ := List.getElem?_eq_some_iff.mp hw
    have hlt : textBase + i < memWords := by omega
    exact (State.memRead_ofNat _ hlt).trans (congrArg some (Memory.read_loadProgram_bin hm hc hw))
  · obtain ⟨hk, -⟩ := List.getElem?_eq_some_iff.mp hw
    have hlt : staticDataBase + k < memWords := by omega
    exact (State.memRead_ofNat _ hlt).trans (congrArg some (Memory.read_loadProgram_data hm hc hw))
  · exact State.memRead_congr (Memory.read_loadProgram_of_outside ha ha')

end Sys2Proof.Machine
end

section
/-!
The pc after an instruction (43_run_loop.md R156): what each kind of meaning leaves in it when the run goes on.
-/

namespace Sys2Proof.Machine

section NextPc

variable {i : Instr} {s t : State} {rs rt : RegIdx} {imm : Imm16}

/-- A report after which the run goes on moves the pc on (60_exceptions.md R244). -/
theorem State.report_pc_of_running {c : Condition} (h : (s.report c).runState = .running) : (s.report c).pc = s.pc + 1 := by
  cases hf : s.cfg.runtimeFatal with
  | true => simp [hf] at h
  | false => simp [hf]

theorem State.addChecked_pc_of_running {d : RegIdx} {a b : Word} (h : (s.addChecked d a b).runState = .running) :
    (s.addChecked d a b).pc = s.pc + 1 := by
  obtain ⟨-, e⟩ | ⟨-, e⟩ := s.addChecked_cases d a b
  · rw [e] at h ⊢
    exact State.report_pc_of_running h
  · rw [e]
    rfl

theorem execLw_pc_of_running (h : execLw rs rt imm s = .next t) (ht : t.runState = .running) : t.pc = s.pc + 1 := by
  obtain ⟨-, e⟩ | ⟨-, e⟩ := s.memRead_cases (s.effectiveAddress rs imm)
  · rw [execLw, e] at h
    cases h
    rfl
  · rw [execLw, e] at h
    cases h
    cases ht

theorem execSw_pc_of_running (h : execSw rs rt imm s = .next t) (ht : t.runState = .running) : t.pc = s.pc + 1 := by
  obtain ⟨-, e⟩ | ⟨-, e⟩ := s.memWrite_cases (s.effectiveAddress rs imm) (s.readReg rt)
  · rw [execSw, e] at h
    cases h
    rfl
  · rw [execSw, e] at h
    cases h
    cases ht

/-- `beq` sets the pc only: to its target where it is taken, to the next word where it is not (46_control_transfer.md R216). -/
theorem execBeq_eq_redirect (rs rt : RegIdx) (imm : Imm16) (s : State) :
    execBeq rs rt imm s = .next (s.redirect ((redirectTarget s (.beq rs rt imm)).getD (s.pc + 1))) := by
  by_cases h : s.readReg rs = s.readReg rt
  · rw [execBeq, if_pos h, redirectTarget, if_pos h, Option.getD_some]
  · rw [execBeq, if_neg h, redirectTarget, if_neg h, Option.getD_none]
    rfl

/-- `bne` sets the pc only: to its target where it is taken, to the next word where it is not (46_control_transfer.md R217). -/
theorem execBne_eq_redirect (rs rt : RegIdx) (imm : Imm16) (s : State) :
    execBne rs rt imm s = .next (s.redirect ((redirectTarget s (.bne rs rt imm)).getD (s.pc + 1))) := by
  by_cases h : s.readReg rs = s.readReg rt
  · rw [execBne, if_pos h, redirectTarget, if_neg (not_not_intro h), Option.getD_none]
    rfl
  · rw [execBne, if_neg h, redirectTarget, if_pos h, Option.getD_some]

/-- The pc update rule (R156), from a state in any run state. -/
theorem exec_pc_of_running (h : exec i s = .next t) (ht : t.runState = .running) :
    t.pc = (redirectTarget s i).getD (s.pc + 1) := by
  cases i with
  | j | jal | jr => cases h; rfl
  | beq rs rt imm => cases (execBeq_eq_redirect rs rt imm s).symm.trans h; rfl
  | bne rs rt imm => cases (execBne_eq_redirect rs rt imm s).symm.trans h; rfl
  | halt => cases h; cases ht
  | lw => exact execLw_pc_of_running h ht
  | sw => exact execSw_pc_of_running h ht
  | add | addi => cases h; exact State.addChecked_pc_of_running ht
  | lbu | lhu | sb | sh | ll | sc => cases h; exact State.report_pc_of_running ht
  | sll | srl | addu | sub | subu | and | or | nor | slt | sltu => cases h; rfl
  | addiu | slti | sltiu | andi | ori | lui => cases h; rfl

end NextPc

/-- Settles O21, by the kinds of instruction: those that redirect the pc, those that can end the run, and the rest. -/
theorem pcAdvancesUnlessRedirected : Obligations.PcAdvancesUnlessRedirected :=
  fun _ _ _ _ h ht => exec_pc_of_running h ht

end Sys2Proof.Machine
end

section
/-!
What an instruction does to the diagnostic log (60_exceptions.md R241, R242), said once, and from it that an ArithmeticOverflow entry
comes from a checked addition and carries its operands (44_alu.md R189).
-/

namespace Sys2Proof.Machine

/-- The instructions that check their addition, with the two operands they add (R241): `add` the words of its registers, `addi` the
word of its register and the sign-extended immediate. -/
inductive CheckedAddition (s : State) : Instr → Word → Word → Prop where
  | add (rs rt rd : RegIdx) (sh : Shamt) : CheckedAddition s (.add rs rt rd sh) (s.readReg rs) (s.readReg rt)
  | addi (rs rt : RegIdx) (imm : Imm16) : CheckedAddition s (.addi rs rt imm) (s.readReg rs) (sext16 imm)

/-- What instruction `i` can make of the log of `s`. -/
inductive LogEffect (s : State) (i : Instr) : List DiagEntry → Prop where
  | quiet : LogEffect s i s.diag
  | unsupported (w : Word) : LogEffect s i (s.diag ++ [{ pc := s.pc, condition := .unsupportedInstruction w }])
  | overflow (a b : Word) (hi : CheckedAddition s i a b) (h : addOverflows a b = true) :
      LogEffect s i (s.diag ++ [{ pc := s.pc, condition := .arithmeticOverflow a b }])

section Log

variable {i : Instr} {s t : State} {rs rt : RegIdx} {imm : Imm16} {a b : Word}

/-! ### The log after an instruction -/

theorem State.addChecked_diag_of_overflows (d : RegIdx) (h : addOverflows a b = true) :
    (s.addChecked d a b).diag = s.diag ++ [{ pc := s.pc, condition := .arithmeticOverflow a b }] := by
  rw [State.addChecked, if_pos h, State.report_diag]

theorem State.addChecked_diag_of_not_overflows (d : RegIdx) (h : ¬ addOverflows a b = true) :
    (s.addChecked d a b).diag = s.diag := by
  rw [State.addChecked, if_neg h, State.writeBack_diag]

theorem CheckedAddition.logEffect (hi : CheckedAddition s i a b) (d : RegIdx) : LogEffect s i (s.addChecked d a b).diag := by
  by_cases h : addOverflows a b = true
  · rw [State.addChecked_diag_of_overflows d h]
    exact .overflow a b hi h
  · rw [State.addChecked_diag_of_not_overflows d h]
    exact .quiet

/-- A load logs nothing: MemoryRange is raised, not reported (60_exceptions.md R243). -/
theorem execLw_diag (h : execLw rs rt imm s = .next t) : t.diag = s.diag := by
  obtain ⟨-, e⟩ | ⟨-, e⟩ := s.memRead_cases (s.effectiveAddress rs imm) <;> (rw [execLw, e] at h; cases h; rfl)

/-- A store logs nothing: MemoryRange is raised, not reported (60_exceptions.md R243). -/
theorem execSw_diag (h : execSw rs rt imm s = .next t) : t.diag = s.diag := by
  obtain ⟨-, e⟩ | ⟨-, e⟩ := s.memWrite_cases (s.effectiveAddress rs imm) (s.readReg rt) <;> (rw [execSw, e] at h; cases h; rfl)

/-- Only a checked addition and an unsupported word append to the log (R241, R242). -/
theorem exec_logEffect (h : exec i s = .next t) : LogEffect s i t.diag := by
  cases i with
  | add rs rt rd sh => cases h; exact (CheckedAddition.add rs rt rd sh).logEffect rd
  | addi rs rt imm => cases h; exact (CheckedAddition.addi rs rt imm).logEffect rt
  | lbu | lhu | sb | sh | ll | sc => cases h; exact s.report_diag _ ▸ .unsupported _
  | lw => exact execLw_diag h ▸ .quiet
  | sw => exact execSw_diag h ▸ .quiet
  | beq rs rt imm => cases (execBeq_eq_redirect rs rt imm s).symm.trans h; exact .quiet
  | bne rs rt imm => cases (execBne_eq_redirect rs rt imm s).symm.trans h; exact .quiet
  | j | jal | jr | halt => cases h; exact .quiet
  | sll | srl | addu | sub | subu | and | or | nor | slt | sltu => cases h; exact .quiet
  | addiu | slti | sltiu | andi | ori | lui => cases h; exact .quiet

/-- An ArithmeticOverflow entry comes from a checked addition at its own pc, and its operands overflow. -/
theorem LogEffect.overflow_inv {e : DiagEntry} (h : LogEffect s i (s.diag ++ [e])) (he : e.condition = .arithmeticOverflow a b) :
    e.pc = s.pc ∧ addOverflows a b = true ∧ CheckedAddition s i a b := by
  generalize hl : s.diag ++ [e] = l at h
  cases h with
  | quiet => simp at hl
  | unsupported w =>
    obtain rfl := List.singleton_inj.mp (List.append_cancel_left hl)
    cases he
  | overflow a' b' hi h =>
    obtain rfl := List.singleton_inj.mp (List.append_cancel_left hl)
    cases he
    exact ⟨rfl, h, hi⟩

end Log

/-! ### The predicate by the signs -/

/-- The predicate as the test on the three signs, bit 31 of each word (R189). -/
theorem addOverflows_iff_signs (a b : Word) :
    addOverflows a b = true ↔ (a.getLsbD 31 = b.getLsbD 31 ∧ (a + b).getLsbD 31 ≠ a.getLsbD 31) := by
  simp [addOverflows, BitVec.msb_eq_getLsbD_last]

/-- Settles O24: `add` and `addi` report where their operands overflow, and nothing else can append an ArithmeticOverflow entry. -/
theorem overflowComesFromAddAndAddiOnly : Obligations.OverflowComesFromAddAndAddiOnly := by
  refine ⟨addOverflows_iff_signs, addOverflows_iff, fun s rs rt rd sh h => ?_, fun s rs rt imm h => ?_,
    fun i s t e a b hexec hlog he => ?_⟩
  · exact ⟨_, rfl, State.addChecked_diag_of_overflows rd h⟩
  · exact ⟨_, rfl, State.addChecked_diag_of_overflows rt h⟩
  · obtain ⟨hpc, hab, hi⟩ := (hlog ▸ exec_logEffect hexec).overflow_inv he
    refine ⟨hpc, hab, ?_⟩
    cases hi with
    | add rs rt rd sh => exact .inl ⟨rs, rt, rd, sh, rfl, rfl, rfl⟩
    | addi rs rt imm => exact .inr ⟨rs, rt, imm, rfl, rfl, rfl⟩

end Sys2Proof.Machine
end

section
/-!
The codec (30_encoding.md): the round trips between a word, its Instruction record and the instruction it stands for (R59),
operation selection (R67), and the lookup tables (R65, R66).
-/

namespace Sys2Proof

section Records

variable {cfg : Config} {w : Word} {v : Variant} {d : Instruction} {i : Instr} {opcode : Nat}

/-! ### Records and words (R59) -/

/-- The tag and the opcode of an encoded record are those of the record, when its fields are in range and its tag agrees. -/
theorem decodeVariant_encodeVariant (hr : v.inRange = true) (ha : v.agrees opcode = true) :
    decodeVariant (encodeVariant opcode v) = v ∧ bits (encodeVariant opcode v) 31 26 = opcode := by
  cases v with
  | register rs rt rd sh fn =>
    simp only [Variant.inRange, Variant.agrees, Bool.and_eq_true, decide_eq_true_eq] at hr ha
    obtain ⟨⟨⟨⟨hrs, hrt⟩, hrd⟩, hsh⟩, hfn⟩ := hr
    subst ha
    obtain ⟨e0, e1, e2, e3, e4, e5⟩ := bits_encode_register (by decide : 0 < 64) hrs hrt hrd hsh hfn
    exact ⟨by rw [decodeVariant_register e0, e1, e2, e3, e4, e5], e0⟩
  | immediate rs rt imm =>
    simp only [Variant.inRange, Variant.agrees, Bool.and_eq_true, decide_eq_true_eq] at hr ha
    obtain ⟨⟨hrs, hrt⟩, himm⟩ := hr
    obtain ⟨⟨⟨⟨hop, h0⟩, h2⟩, h3⟩, h63⟩ := ha
    obtain ⟨e0, e1, e2, e3⟩ := bits_encode_immediate hop hrs hrt himm
    rw [← e0] at h0 h2 h3 h63
    exact ⟨by rw [decodeVariant_immediate h0 h2 h3 h63, e1, e2, e3], e0⟩
  | jump address =>
    simp only [Variant.inRange, Variant.agrees, Bool.or_eq_true, decide_eq_true_eq] at hr ha
    obtain ⟨e0, e1⟩ := bits_encode_jump (op := opcode) (by omega) hr
    rw [← e0] at ha
    exact ⟨by rw [decodeVariant_jump ha, e1], e0⟩
  | halt =>
    obtain rfl : opcode = 0x3F := of_decide_eq_true ha
    exact ⟨rfl, rfl⟩

/-- Decoding an encoded record gives the record without its annotations (R59, first law). -/
theorem decode_encode (h : d.wellFormed = true) : decode (encode d) = { d with label := none, symbolicOperand := none } := by
  simp only [Instruction.wellFormed, Instruction.fieldsOk, Instruction.inSync, Bool.and_eq_true, beq_iff_eq] at h
  obtain ⟨⟨hr, ha⟩, hs⟩ := h
  obtain ⟨hv, hop⟩ := decodeVariant_encodeVariant hr ha
  unfold decode encode
  rw [hv, hop, hs]
  rfl

/-- Encoding a decoded word gives the word back, if it is not a halt word (R59, second law). -/
theorem encode_decode (h : bits w 31 26 ≠ 0x3F) : encode (decode w) = w := by
  have hlt := w.isLt
  apply BitVec.eq_of_toNat_eq
  show (encodeVariant (bits w 31 26) (decodeVariant w)).toNat = w.toNat
  by_cases hreg : bits w 31 26 = 0
  · rw [decodeVariant_register hreg, encodeVariant, BitVec.toNat_ofNat]
    simp only [bits_eq_div_mod]
    omega
  by_cases hjump : bits w 31 26 = 2 ∨ bits w 31 26 = 3
  · rw [decodeVariant_jump hjump, encodeVariant, BitVec.toNat_ofNat]
    simp only [bits_eq_div_mod]
    omega
  · rw [decodeVariant_immediate hreg (by omega) (by omega) h, encodeVariant, BitVec.toNat_ofNat]
    simp only [bits_eq_div_mod]
    omega

/-- Every halt word is encoded as the canonical one (R55). -/
theorem encode_decode_halt (h : bits w 31 26 = 0x3F) : encode (decode w) = haltWord := by
  rw [encode, decode, decodeVariant_halt h]
  rfl

/-! ### Instructions and their records -/

theorem toInstruction_ofRegister (cfg : Config) (rs rt rd : RegIdx) (sh : Shamt) (op : RegOp) :
    (Instr.ofRegister rs rt rd sh op).toInstruction cfg =
      Instruction.make cfg (.reg op) (.register rs.toNat rt.toNat rd.toNat sh.toNat (cfg.func.code op).toNat) := by
  cases op <;> rfl

theorem toInstruction_ofImmediate (cfg : Config) (rs rt : RegIdx) (imm : Imm16) (op : ImmOp) :
    (Instr.ofImmediate rs rt imm op).toInstruction cfg =
      Instruction.make cfg (.imm op) (.immediate rs.toNat rt.toNat imm.toNat) := by
  cases op <;> rfl

theorem toInstruction_ofJump (cfg : Config) (address : Addr26) (op : JumpOp) :
    (Instr.ofJump address op).toInstruction cfg = Instruction.make cfg (.jump op) (.jump address.toNat) := by
  cases op <;> rfl

/-- In a valid configuration every instruction is well-formed. -/
theorem toInstruction_wellFormed (hv : cfg.valid = true) (i : Instr) : (i.toInstruction cfg).wellFormed = true := by
  obtain ⟨rs, rt, rd, sh, op, rfl⟩ | ⟨rs, rt, imm, op, rfl⟩ | ⟨address, op, rfl⟩ | rfl := i.format_cases
  · rw [toInstruction_ofRegister]; exact Laws.EncodesWellFormed.of_reg rs rt rd sh _
  · rw [toInstruction_ofImmediate]; exact Laws.EncodesWellFormed.of_imm hv rs rt imm
  · rw [toInstruction_ofJump]; exact Laws.EncodesWellFormed.of_jump address
  · exact Laws.EncodesWellFormed.halt cfg hv

/-- In a valid configuration the record of an instruction stands for it: the reverse tables find its mnemonic (R65, R67). -/
theorem instrOf_toInstruction (hv : cfg.valid = true) (i : Instr) : instrOf cfg (i.toInstruction cfg) = .ok i := by
  obtain ⟨hopc, -, hfunc, -⟩ := cfg.valid_iff.mp hv
  obtain ⟨rs, rt, rd, sh, op, rfl⟩ | ⟨rs, rt, imm, op, rfl⟩ | ⟨address, op, rfl⟩ | rfl := i.format_cases
  · rw [toInstruction_ofRegister]
    simp [instrOf, Instruction.make, Instruction.rederive, FuncTable.opOf_code hfunc]
  · rw [toInstruction_ofImmediate]
    simp [instrOf, Instruction.make, Instruction.rederive, Mnemonic.opcode, OpcTable.opOf_code hopc]
  · rw [toInstruction_ofJump]
    simp [instrOf, Instruction.make, Instruction.rederive]
  · rfl

theorem decodeWord_encodeInstr (hv : cfg.valid = true) (i : Instr) : decodeWord cfg (encodeInstr cfg i) = .ok i := by
  have hd : decode (encode (i.toInstruction cfg)) = i.toInstruction cfg := decode_encode (toInstruction_wellFormed hv i)
  exact (congrArg (instrOf cfg) hd).trans (instrOf_toInstruction hv i)

/-! ### Operation selection (R67) -/

/-- What the decoder makes of a word, beside the operation the word selects. -/
inductive Decodes (cfg : Config) (w : Word) : Option Mnemonic → Except DecodeError Instr → Prop where
  | halt (h : decodeVariant w = .halt) (hc : bits w 31 26 = 0x3F) : Decodes cfg w (some .halt) (.ok .halt)
  | register (op : RegOp)
      (h : decodeVariant w = .register (bits w 25 21) (bits w 20 16) (bits w 15 11) (bits w 10 6) (bits w 5 0))
      (hc : bits w 31 26 = 0) (hop : cfg.func.opOf (bits w 5 0) = some op) :
      Decodes cfg w (some (.reg op)) (.ok (Instr.ofRegister (.ofNat 5 (bits w 25 21)) (.ofNat 5 (bits w 20 16))
        (.ofNat 5 (bits w 15 11)) (.ofNat 5 (bits w 10 6)) op))
  | jump (op : JumpOp) (h : decodeVariant w = .jump (bits w 25 0)) (hop : JumpOp.ofOpcode (bits w 31 26) = some op) :
      Decodes cfg w (some (.jump op)) (.ok (Instr.ofJump (.ofNat 26 (bits w 25 0)) op))
  | immediate (op : ImmOp) (h : decodeVariant w = .immediate (bits w 25 21) (bits w 20 16) (bits w 15 0))
      (hop : cfg.opc.opOf (bits w 31 26) = some op) :
      Decodes cfg w (some (.imm op)) (.ok (Instr.ofImmediate (.ofNat 5 (bits w 25 21)) (.ofNat 5 (bits w 20 16))
        (.ofNat 16 (bits w 15 0)) op))
  | undefined : Decodes cfg w none (.error (.undefinedEncoding w))

/-- The decoder, said once: by the tag of the word (R56), then by the reverse table of the tag. -/
theorem decodes (cfg : Config) (w : Word) : Decodes cfg w (opOf cfg (decode w)) (decodeWord cfg w) := by
  by_cases hhalt : bits w 31 26 = 0x3F
  · have h := decodeVariant_halt hhalt
    simp only [decodeWord, instrOf, opOf, decode, h]
    exact .halt h hhalt
  by_cases hreg : bits w 31 26 = 0
  · have h := decodeVariant_register hreg
    simp only [decodeWord, instrOf, opOf, decode, h]
    cases hop : cfg.func.opOf (bits w 5 0) with
    | none => exact .undefined
    | some op => exact .register op h hreg hop
  by_cases hjump : bits w 31 26 = 2 ∨ bits w 31 26 = 3
  · have h := decodeVariant_jump hjump
    simp only [decodeWord, instrOf, opOf, decode, h]
    cases hop : JumpOp.ofOpcode (bits w 31 26) with
    | none => exact .undefined
    | some op => exact .jump op h hop
  · have h := decodeVariant_immediate hreg (by omega) (by omega) hhalt
    simp only [decodeWord, instrOf, opOf, decode, h]
    cases hop : cfg.opc.opOf (bits w 31 26) with
    | none => exact .undefined
    | some op => exact .immediate op h hop

theorem mnemonic_ofRegister (rs rt rd : RegIdx) (sh : Shamt) (op : RegOp) :
    (Instr.ofRegister rs rt rd sh op).mnemonic = .reg op := by cases op <;> rfl

theorem mnemonic_ofImmediate (rs rt : RegIdx) (imm : Imm16) (op : ImmOp) :
    (Instr.ofImmediate rs rt imm op).mnemonic = .imm op := by cases op <;> rfl

theorem mnemonic_ofJump (address : Addr26) (op : JumpOp) : (Instr.ofJump address op).mnemonic = .jump op := by
  cases op <;> rfl

/-- A decoded instruction is the one operation selection gives (R67). -/
theorem opOf_of_decodeWord (h : decodeWord cfg w = .ok i) : opOf cfg (decode w) = some i.mnemonic := by
  have hd := decodes cfg w
  rw [h] at hd
  generalize opOf cfg (decode w) = m at hd
  cases hd with
  | halt => rfl
  | register => rw [mnemonic_ofRegister]
  | jump => rw [mnemonic_ofJump]
  | immediate => rw [mnemonic_ofImmediate]

/-- The decoder rejects a word with that word, and only an Undefined one (R67, R69). -/
theorem decodeWord_eq_error {e : DecodeError} :
    decodeWord cfg w = .error e ↔ opOf cfg (decode w) = none ∧ e = .undefinedEncoding w := by
  have hd := decodes cfg w
  generalize opOf cfg (decode w) = m at hd
  generalize decodeWord cfg w = x at hd
  cases hd <;> simp [eq_comm]

theorem ofOpcode_some {op : JumpOp} (h : JumpOp.ofOpcode opcode = some op) : ((Mnemonic.jump op).opcode cfg).toNat = opcode := by
  unfold JumpOp.ofOpcode at h
  split at h
  · cases h; exact Eq.symm ‹_›
  · split at h <;> cases h
    exact Eq.symm ‹_›

/-- The record of a decoded instruction has the tag, the fields and the opcode of the word, ignored fields included (R57, R68). -/
theorem encodeInstr_of_decodeWord (h : decodeWord cfg w = .ok i) : encodeInstr cfg i = encode (decode w) := by
  have hd := decodes cfg w
  rw [h] at hd
  generalize opOf cfg (decode w) = m at hd
  unfold encode decode
  cases hd with
  | halt hv hc => rw [hv]; rfl
  | register op hv hc hop =>
    rw [encodeInstr_ofRegister, hv, hc, FuncTable.code_of_opOf hop]
    simp [bits_eq_div_mod]
  | jump op hv hop =>
    rw [encodeInstr_ofJump, hv, ofOpcode_some hop]
    simp [bits_eq_div_mod]
  | immediate op hv hop =>
    rw [encodeInstr_ofImmediate, hv, OpcTable.code_of_opOf hop]
    simp [bits_eq_div_mod]

end Records

/-! ### Lookup by a distinct key (R65, R66) -/

/-- In a list whose members have distinct keys, the search for a key finds exactly the member that has it. -/
theorem find?_key_eq_some {α β : Type} [BEq β] [LawfulBEq β] {l : List α} {key : α → β} {c : β} {a : α}
    (hl : (l.map key).Nodup) : (l.find? fun x => key x == c) = some a ↔ a ∈ l ∧ key a = c := by
  constructor
  · intro h
    exact ⟨List.mem_of_find?_eq_some h, by simpa using List.find?_some h⟩
  · rintro ⟨ha, rfl⟩
    cases h : l.find? fun x => key x == key a with
    | none => simpa using List.find?_eq_none.mp h a ha
    | some b =>
      have hb : key b = key a := by simpa using List.find?_some h
      rw [List.inj_on_of_nodup_map hl (List.mem_of_find?_eq_some h) ha hb]

section Tables

variable {cfg : Config}

theorem mem_allRegs (i : RegIdx) : i ∈ allRegs := by
  simp only [allRegs, List.mem_map]
  exact ⟨i.toFin, List.mem_finRange _, rfl⟩

/-- The index of a register name (R66). -/
theorem regIndex_eq_some (h : cfg.namesDistinct = true) {name : Text} {i : RegIdx} :
    regIndex cfg name = some i ↔ regName cfg i = name := by
  have hn : (allRegs.map (regName cfg)).Nodup := of_decide_eq_true h
  rw [regIndex, find?_key_eq_some hn, and_iff_right (mem_allRegs i)]

theorem regIndex_eq_none {name : Text} : regIndex cfg name = none ↔ ∀ i : RegIdx, regName cfg i ≠ name := by
  simp [regIndex, mem_allRegs]

theorem mem_allMnemonics (m : Mnemonic) : m ∈ allMnemonics := by
  cases m with
  | reg op => simp [allMnemonics, mem_allRegOps]
  | imm op => simp [allMnemonics, mem_allImmOps]
  | jump op => cases op <;> simp [allMnemonics]
  | halt => simp [allMnemonics]

theorem spellings_nodup : (allMnemonics.map Mnemonic.spelling).Nodup := by decide

/-- The mnemonic of a spelling (R65). -/
theorem mnemonicOf_eq_some {name : Text} {m : Mnemonic} : mnemonicOf name = some m ↔ m.spelling = name := by
  rw [mnemonicOf, find?_key_eq_some spellings_nodup, and_iff_right (mem_allMnemonics m)]

theorem mnemonicOf_eq_none {name : Text} : mnemonicOf name = none ↔ ∀ m : Mnemonic, m.spelling ≠ name := by
  simp [mnemonicOf, mem_allMnemonics]

/-- The mnemonics without a function code are those with an opcode of their own. -/
theorem mem_allOpcodeMnemonics (cfg : Config) (m : Mnemonic) : m ∈ allOpcodeMnemonics ↔ m.func cfg = none := by
  cases m with
  | reg op => simp [allOpcodeMnemonics, Mnemonic.func]
  | imm op => simp [allOpcodeMnemonics, Mnemonic.func, mem_allImmOps]
  | jump op => cases op <;> simp [allOpcodeMnemonics, Mnemonic.func]
  | halt => simp [allOpcodeMnemonics, Mnemonic.func]

/-- With a table OPC that D1 allows, no two mnemonics of `allOpcodeMnemonics` share an opcode. -/
theorem opcodes_nodup (hinj : cfg.opc.injective = true) (hav : cfg.opc.avoidsFixed = true) :
    (allOpcodeMnemonics.map fun m => (m.opcode cfg).toNat).Nodup := by
  have himm : (allImmOps.map fun op => (cfg.opc.code op).toNat).Nodup := by
    have hn : (allImmOps.map cfg.opc.code).Nodup := of_decide_eq_true hinj
    have := hn.map (f := BitVec.toNat) fun _ _ => BitVec.eq_of_toNat_eq
    rwa [List.map_map] at this
  rw [allOpcodeMnemonics, List.map_append, List.map_map]
  refine List.nodup_append.mpr ⟨himm, by simp [Mnemonic.opcode, opJ, opJal, opHalt], fun a ha b hb => ?_⟩
  obtain ⟨op, -, rfl⟩ := List.mem_map.mp ha
  obtain ⟨-, h2, h3, h63⟩ := OpcTable.code_ne_fixed hav op
  have hb' : b = 2 ∨ b = 3 ∨ b = 0x3F := by simpa [Mnemonic.opcode, opJ, opJal, opHalt] using hb
  rintro rfl
  obtain h | h | h := hb'
  exacts [h2 h, h3 h, h63 h]

/-- The mnemonic of an opcode (R65). -/
theorem mnemonicOfOpcode_eq_some (hinj : cfg.opc.injective = true) (hav : cfg.opc.avoidsFixed = true) {c : Nat} {m : Mnemonic} :
    mnemonicOfOpcode cfg c = some m ↔ m.func cfg = none ∧ (m.opcode cfg).toNat = c := by
  rw [mnemonicOfOpcode, find?_key_eq_some (opcodes_nodup hinj hav), mem_allOpcodeMnemonics cfg]

/-- The mnemonic of a function code (R65). -/
theorem mnemonicOfFunc_eq_some (hinj : cfg.func.injective = true) {c : Nat} {m : Mnemonic} :
    mnemonicOfFunc cfg c = some m ↔ ∃ f, m.func cfg = some f ∧ f.toNat = c := by
  rw [mnemonicOfFunc, Option.map_eq_some_iff]
  constructor
  · rintro ⟨op, hop, rfl⟩
    exact ⟨cfg.func.code op, rfl, FuncTable.code_of_opOf hop⟩
  · rintro ⟨f, hf, rfl⟩
    cases m with
    | reg op =>
      cases hf
      exact ⟨op, FuncTable.opOf_code hinj op, rfl⟩
    | imm _ => cases hf
    | jump _ => cases hf
    | halt => cases hf

end Tables

/-- Settles O1: the record of an instruction is well-formed, so its word decodes to the record, and the record stands for the
instruction. -/
theorem decodeOfEncodeIsTheInstruction : Obligations.DecodeOfEncodeIsTheInstruction :=
  fun _ hv i => decodeWord_encodeInstr hv i

/-- Settles O2: the two laws, and every halt word but one loses its low bits. -/
theorem recordCodecRoundTrips : Obligations.RecordCodecRoundTrips := by
  refine ⟨fun d h => decode_encode h, fun w h => encode_decode h, rfl, fun w h hw he => hw ?_⟩
  rw [← he, encode_decode_halt h]
  rfl

/-- Settles O3, by the cases of the decoder. -/
theorem decoderFollowsOperationSelection : Obligations.DecoderFollowsOperationSelection := by
  refine fun cfg w => ⟨?_, fun i h => opOf_of_decodeWord h⟩
  rw [decodeWord_eq_error, and_iff_left rfl]

/-- Settles O4: the instruction's record is the word's record up to the tables, and that record encodes to the word. -/
theorem encodeOfDecodedWordIsTheWord : Obligations.EncodeOfDecodedWordIsTheWord :=
  fun _ _ _ h hw => (encodeInstr_of_decodeWord h).trans (encode_decode hw)

/-- Settles O5: the nine words, evaluated. -/
theorem listedWordsDecodeAsListed : Obligations.ListedWordsDecodeAsListed := by
  unfold Obligations.ListedWordsDecodeAsListed
  decide

/-- Settles O6, by the search for a distinct key. -/
theorem registerNamesLookUpBack : Obligations.RegisterNamesLookUpBack :=
  fun _ h => ⟨fun _ => (regIndex_eq_some h).mpr rfl, fun _ => regIndex_eq_none⟩

/-- Settles O60, by the search for a distinct key in each table. -/
theorem mnemonicTablesAreBidirectional : Obligations.MnemonicTablesAreBidirectional := by
  intro cfg hv
  obtain ⟨hopc, hav, hfunc, -⟩ := cfg.valid_iff.mp hv
  refine ⟨fun m => ?_, fun name h => ?_, fun c m => mnemonicOfOpcode_eq_some hopc hav, fun c m => mnemonicOfFunc_eq_some hfunc⟩
  · have hm : mnemonicOf m.spelling = some m := mnemonicOf_eq_some.mpr rfl
    exact ⟨hm, by simp [opcodeOfName, hm], by simp [funcOfName, hm]⟩
  · have hm : mnemonicOf name = none := mnemonicOf_eq_none.mpr h
    exact ⟨hm, by simp [opcodeOfName, hm], by simp [funcOfName, hm]⟩

end Sys2Proof
end

section
/-!
The arithmetic, logic, comparison and shift instructions (44_alu.md): each meaning is a write-back or a checked addition, and the
value it writes is the one its rule states.
-/

namespace Sys2Proof.Machine

section Values

variable {s : State} {d : RegIdx} {v w a b : Word} {imm : Imm16}

/-- A write-back of the value a rule states. -/
theorem writesReg_writeBack_of_eq (h : v = w) : WritesReg s (s.writeBack d v) d w := h ▸ writesReg_writeBack s d v

/-- The sign-extended immediate from its signed value (00_scope.md R9). -/
theorem sext16_eq_ofInt (imm : Imm16) : sext16 imm = BitVec.ofInt 32 imm.toInt := by
  rw [← sext16_toInt, BitVec.ofInt_toInt]

/-- The sign-extended immediate as an unsigned word: its signed value modulo 2^32. -/
theorem sext16_toNat (imm : Imm16) : ((sext16 imm).toNat : Int) = imm.toInt % 4294967296 := by
  rw [sext16_eq_ofInt, BitVec.toNat_ofInt, Int.toNat_of_nonneg (Int.emod_nonneg _ (by decide))]
  rfl

theorem zext16_getLsbD (imm : Imm16) {k : Nat} (hk : k < 32) : (zext16 imm).getLsbD k = (decide (k < 16) && imm.getLsbD k) := by
  rw [zext16, BitVec.zeroExtend, BitVec.getLsbD_setWidth]
  by_cases h : k < 16
  · simp [hk, h]
  · simp [h, BitVec.getLsbD_of_ge imm k (by omega)]

theorem upper16_eq (imm : Imm16) : upper16 imm = BitVec.ofNat 32 (imm.toNat * 65536) := by
  apply BitVec.eq_of_toNat_eq
  rw [upper16, BitVec.toNat_append, BitVec.toNat_ofNat, Nat.shiftLeft_eq]
  have := imm.isLt
  simp
  omega

theorem ofNat_add_toNat (a b : Word) : BitVec.ofNat 32 (a.toNat + b.toNat) = a + b := by
  simp [BitVec.ofNat_add]

theorem ofInt_add_imm (a : Word) (imm : Imm16) : BitVec.ofInt 32 (a.toInt + imm.toInt) = a + sext16 imm := by
  rw [← sext16_toInt, ofInt_add_toInt]

theorem ofNat_mul_two_pow (a : Word) (n : Nat) : BitVec.ofNat 32 (a.toNat * 2 ^ n) = a <<< n := by
  apply BitVec.eq_of_toNat_eq
  rw [BitVec.toNat_ofNat, BitVec.toNat_shiftLeft, Nat.shiftLeft_eq]

theorem ofNat_div_two_pow (a : Word) (n : Nat) : BitVec.ofNat 32 (a.toNat / 2 ^ n) = a >>> n := by
  apply BitVec.eq_of_toNat_eq
  rw [BitVec.toNat_ofNat, BitVec.toNat_ushiftRight, Nat.shiftRight_eq_div_pow]
  exact Nat.mod_eq_of_lt ((Nat.div_le_self _ _).trans_lt a.isLt)

/-! ### The checked addition (R170, R172) -/

/-- An exact sum in range is written. -/
theorem writesReg_addChecked (s : State) (d : RegIdx) (h : -2147483648 ≤ a.toInt + b.toInt ∧ a.toInt + b.toInt ≤ 2147483647) :
    WritesReg s (s.addChecked d a b) d (a + b) ∧ (a + b).toInt = a.toInt + b.toInt := by
  obtain ⟨ho, -⟩ | ⟨ho, e⟩ := s.addChecked_cases d a b
  · rw [addOverflows_iff] at ho
    omega
  · rw [e]
    exact ⟨writesReg_writeBack s d _, toInt_add_of_not_overflows ho⟩

/-- An exact sum out of range is reported. -/
theorem reports_addChecked (s : State) (d : RegIdx) (h : ¬ (-2147483648 ≤ a.toInt + b.toInt ∧ a.toInt + b.toInt ≤ 2147483647)) :
    Reports s (s.addChecked d a b) (.arithmeticOverflow a b) := by
  obtain ⟨-, e⟩ | ⟨ho, -⟩ := s.addChecked_cases d a b
  · rw [e]
    exact reports_report s _
  · rw [addOverflows_iff] at ho
    omega

end Values

/-- Settles O25, by the two cases of the checked addition. -/
theorem addWritesTheSumOrReportsOverflow : Obligations.AddWritesTheSumOrReportsOverflow := by
  intro s rs rt rd sh
  refine ⟨fun h => ?_, fun h => ?_⟩
  · obtain ⟨hw, hv⟩ := writesReg_addChecked s rd h
    exact ⟨_, _, rfl, hw, hv⟩
  · exact ⟨_, rfl, reports_addChecked s rd h⟩

/-- Settles O26, by the two cases of the checked addition with the sign-extended immediate. -/
theorem addiWritesTheSumOrReportsOverflow : Obligations.AddiWritesTheSumOrReportsOverflow := by
  intro s rs rt imm
  rw [← sext16_eq_ofInt, ← sext16_toInt]
  refine ⟨fun h => ?_, fun h => ?_⟩
  · obtain ⟨hw, hv⟩ := writesReg_addChecked s rt h
    exact ⟨_, _, rfl, hw, hv⟩
  · exact ⟨_, rfl, reports_addChecked s rt h⟩

/-- Settles O27: the word operations are the exact ones modulo 2^32. -/
theorem adduSubSubuWrapModulo : Obligations.AdduSubSubuWrapModulo := by
  intro s rs rt rd sh
  rw [ofNat_add_toNat, ofInt_sub_toInt]
  exact ⟨⟨_, rfl, writesReg_writeBack s rd _⟩, ⟨_, rfl, writesReg_writeBack s rd _⟩, ⟨_, rfl, writesReg_writeBack s rd _⟩⟩

/-- Settles O28: each bit of a bitwise result. -/
theorem andOrNorActBitwise : Obligations.AndOrNorActBitwise := by
  intro s rs rt rd sh
  refine ⟨⟨_, _, rfl, writesReg_writeBack s rd _, fun k _ => ?_⟩, ⟨_, _, rfl, writesReg_writeBack s rd _, fun k _ => ?_⟩,
    ⟨_, _, rfl, writesReg_writeBack s rd _, fun k hk => ?_⟩⟩
  · exact BitVec.getLsbD_and
  · exact BitVec.getLsbD_or
  · rw [BitVec.getLsbD_not, BitVec.getLsbD_or, decide_eq_true hk, Bool.true_and]

/-- Settles O29: the comparisons are those of the rules. -/
theorem sltAndSltuCompare : Obligations.SltAndSltuCompare :=
  fun s _ _ rd _ => ⟨⟨_, rfl, writesReg_writeBack s rd _⟩, ⟨_, rfl, writesReg_writeBack s rd _⟩⟩

/-- Settles O30: the sign-extended immediate by its signed value, and for `sltiu` by its unsigned one. -/
theorem addiuSltiSltiuSignExtend : Obligations.AddiuSltiSltiuSignExtend := by
  intro s rs rt imm
  rw [ofInt_add_imm, ← sext16_toNat, ← sext16_toInt]
  refine ⟨⟨_, rfl, writesReg_writeBack s rt _⟩, ⟨_, rfl, writesReg_writeBack s rt _⟩, ⟨_, rfl, writesReg_writeBack_of_eq ?_⟩⟩
  simp only [setLessUnsigned, Int.ofNat_lt]

/-- Settles O31: each bit of a bitwise result, the immediate's above bit 15 being zero. -/
theorem andiOriZeroExtend : Obligations.AndiOriZeroExtend := by
  intro s rs rt imm
  refine ⟨⟨_, _, rfl, writesReg_writeBack s rt _, fun k hk => ?_⟩, ⟨_, _, rfl, writesReg_writeBack s rt _, fun k hk => ?_⟩⟩
  · rw [BitVec.getLsbD_and, zext16_getLsbD imm hk, Bool.and_left_comm, Bool.and_assoc]
  · rw [BitVec.getLsbD_or, zext16_getLsbD imm hk]

/-- Settles O32: the immediate over a zero lower half. -/
theorem luiFillsTheUpperHalf : Obligations.LuiFillsTheUpperHalf :=
  fun _ _ _ imm => ⟨_, rfl, writesReg_writeBack_of_eq (upper16_eq imm)⟩

/-- Settles O33: a logical shift as a product and as a quotient. -/
theorem shiftsAreLogical : Obligations.ShiftsAreLogical := by
  intro s rs rt rd sh
  rw [ofNat_mul_two_pow, ofNat_div_two_pow]
  exact ⟨⟨_, rfl, writesReg_writeBack s rd _⟩, ⟨_, rfl, writesReg_writeBack s rd _⟩⟩

/-- Settles O34: the write-back of `addiu` at destination 0. -/
theorem registerZeroIsWritable : Obligations.RegisterZeroIsWritable := by
  intro s rs imm
  rw [ofInt_add_imm]
  exact ⟨_, rfl, (oneReg_writeReg s 0 _).1⟩

end Sys2Proof.Machine
end

section
/-!
Memory (20_memory.md), the loads and stores (45_memory_ops.md), and the branches, jumps and halt (46_control_transfer.md).
-/

namespace Sys2Proof.Machine

section Memories

variable {s : State} {m n : Memory} {rs rt : RegIdx} {imm : Imm16}

/-! ### Canonical memories -/

/-- The cells of a canonical memory are the addresses that do not read as unlisted, each with what it reads as. -/
theorem Memory.mem_iff_read (hm : Memory.wf m = true) (c : Cell) : c ∈ m ↔ c.2 ≠ Memory.unlisted ∧ m.read c.1 = c.2 := by
  induction m with
  | nil =>
    simp only [List.not_mem_nil, false_iff, Memory.read]
    exact fun h => h.1 h.2.symm
  | cons d m ih =>
    obtain ⟨hrising, hcells⟩ := (Memory.wf_iff _).mp hm
    have habove := (List.pairwise_cons.mp hrising).1
    rw [List.mem_cons, ih (Memory.wf_tail hm), Memory.read]
    by_cases hd : d.1 = c.1
    · have hbelow : Memory.read m c.1 = Memory.unlisted := Memory.read_below m c.1 (hd ▸ habove)
      rw [if_pos hd, hbelow]
      constructor
      · rintro (rfl | ⟨hne, he⟩)
        · exact ⟨(hcells c List.mem_cons_self).2, rfl⟩
        · exact absurd he.symm hne
      · exact fun h => .inl (Prod.ext hd.symm h.2.symm)
    · rw [if_neg hd, or_iff_right]
      rintro rfl
      exact hd rfl

/-- An address outside the array reads as unlisted in a canonical memory. -/
theorem Memory.read_outside (hm : Memory.wf m = true) {a : Nat} (ha : memWords ≤ a) : m.read a = Memory.unlisted := by
  by_contra h
  have hc : (a, m.read a) ∈ m := (Memory.mem_iff_read hm _).mpr ⟨h, rfl⟩
  have := (((Memory.wf_iff m).mp hm).2 _ hc).1
  omega

/-- Canonical memories that read alike have the same cells, and the cells stand in the order of their addresses. -/
theorem Memory.eq_of_read_eq (hm : Memory.wf m = true) (hn : Memory.wf n = true) (h : ∀ a, m.read a = n.read a) : m = n := by
  have hmr := ((Memory.wf_iff m).mp hm).1
  have hnr := ((Memory.wf_iff n).mp hn).1
  have hcells : ∀ c, c ∈ m ↔ c ∈ n := fun c => by rw [Memory.mem_iff_read hm, Memory.mem_iff_read hn, h]
  have distinct : ∀ {l : Memory}, (l.Pairwise fun a b => a.1 < b.1) → l.Nodup :=
    fun hl => hl.imp fun hab e => by rw [e] at hab; exact lt_irrefl _ hab
  refine ((List.perm_ext_iff_of_nodup (distinct hmr) (distinct hnr)).mpr hcells).eq_of_pairwise ?_ hmr hnr
  intro a b _ _ hab hba
  omega

/-! ### The effective address -/

theorem eq_effectiveAddress {ea : Word} (h : ea = BitVec.ofInt 32 ((s.readReg rs).toInt + imm.toInt)) :
    ea = s.effectiveAddress rs imm := h.trans (s.effectiveAddress_eq rs imm).symm

theorem execLw_inside (h : (s.effectiveAddress rs imm).toNat < memWords) (rt : RegIdx) :
    execLw rs rt imm s = .next (s.writeBack rt (s.mem.read (s.effectiveAddress rs imm).toNat)) := by
  rw [execLw, State.memRead, if_pos h]

theorem execLw_outside (h : memWords ≤ (s.effectiveAddress rs imm).toNat) (rt : RegIdx) :
    execLw rs rt imm s = .next (s.raise (.memoryRange (s.effectiveAddress rs imm))) := by
  rw [execLw, State.memRead, if_neg (by omega)]

theorem execSw_inside (h : (s.effectiveAddress rs imm).toNat < memWords) (rt : RegIdx) :
    execSw rs rt imm s =
      .next ({ s with mem := s.mem.write (s.effectiveAddress rs imm).toNat (s.readReg rt) } : State).advance := by
  rw [execSw, State.memWrite, if_pos h]

theorem execSw_outside (h : memWords ≤ (s.effectiveAddress rs imm).toNat) (rt : RegIdx) :
    execSw rs rt imm s = .next (s.raise (.memoryRange (s.effectiveAddress rs imm))) := by
  rw [execSw, State.memWrite, if_neg (by omega)]

/-! ### Branches -/

theorem redirectTarget_beq (s : State) (rs rt : RegIdx) (imm : Imm16) :
    (redirectTarget s (.beq rs rt imm)).getD (s.pc + 1) =
      if s.readReg rs = s.readReg rt then s.branchTarget imm else s.pc + 1 := by
  rw [redirectTarget]
  split <;> rfl

theorem redirectTarget_bne (s : State) (rs rt : RegIdx) (imm : Imm16) :
    (redirectTarget s (.bne rs rt imm)).getD (s.pc + 1) =
      if s.readReg rs = s.readReg rt then s.pc + 1 else s.branchTarget imm := by
  rw [redirectTarget, ite_not]
  split <;> rfl

end Memories

/-- Settles O35, by the two cases of the effective address. -/
theorem lwLoadsOrRaisesMemoryRange : Obligations.LwLoadsOrRaisesMemoryRange := by
  intro s rs rt imm ea hea
  obtain rfl := eq_effectiveAddress hea
  refine ⟨fun h => ⟨_, _, execLw_inside h rt, ?_, writesReg_writeBack s rt _⟩, fun h => ?_⟩
  · rw [State.memRead, if_pos (show _ < memWords from h)]
  · exact ⟨_, execLw_outside h rt, raisesRange_raise s _⟩

/-- Settles O36, by the two cases of the effective address. -/
theorem swStoresOrRaisesMemoryRange : Obligations.SwStoresOrRaisesMemoryRange := by
  intro s rs rt imm ea hm hea
  obtain rfl := eq_effectiveAddress hea
  refine ⟨fun h => ?_, fun h => ?_⟩
  · exact ⟨_, execSw_inside h rt, oneCell_write s hm h rfl, fun _ => rfl, rfl, rfl, rfl, rfl, rfl, rfl⟩
  · exact ⟨_, execSw_outside h rt, raisesRange_raise s _⟩

/-- Settles O37: each of the six is a report of its own word. -/
theorem unimplementedInstructionsReport : Obligations.UnimplementedInstructionsReport := by
  rintro s i rs rt imm (rfl | rfl | rfl | rfl | rfl | rfl)
  all_goals exact ⟨_, rfl, reports_report s _⟩

/-- Settles O39, by the two cases of the address. -/
theorem memoryReadsBackWhatWasWritten : Obligations.MemoryReadsBackWhatWasWritten := by
  intro s a v hm
  refine ⟨fun h => ?_, fun h => ⟨if_neg (Nat.not_lt.mpr h), if_neg (Nat.not_lt.mpr h)⟩⟩
  exact ⟨_, if_pos h, oneCell_write s hm h rfl, Memory.wf_write hm h v⟩

/-- Settles O40: outside the array canonical memories read alike anyway. -/
theorem canonicalMemoryIsDeterminedByItsReads : Obligations.CanonicalMemoryIsDeterminedByItsReads := by
  intro m n hm hn h
  refine Memory.eq_of_read_eq hm hn fun a => ?_
  by_cases ha : a < memWords
  · exact h a ha
  · rw [Memory.read_outside hm (Nat.le_of_not_lt ha), Memory.read_outside hn (Nat.le_of_not_lt ha)]

/-- Settles O41: a branch sets the pc to its target or to the next word, and nothing else. -/
theorem branchesAreRelativeToTheNextWord : Obligations.BranchesAreRelativeToTheNextWord := by
  intro s rs rt imm
  rw [← s.branchTarget_eq, ← redirectTarget_beq, ← redirectTarget_bne]
  exact ⟨⟨_, execBeq_eq_redirect rs rt imm s, setsPc_redirect s _⟩, ⟨_, execBne_eq_redirect rs rt imm s, setsPc_redirect s _⟩⟩

/-- Settles O42, by the jump target as a number. -/
theorem jumpStaysInItsSegment : Obligations.JumpStaysInItsSegment := by
  intro s address
  rw [← s.jumpTarget_eq]
  exact ⟨_, rfl, setsPc_redirect s _⟩

/-- Settles O43, by the jump target as a number. -/
theorem jalLinksAndJumps : Obligations.JalLinksAndJumps := by
  intro s address
  rw [← s.jumpTarget_eq]
  exact ⟨_, rfl, oneReg_writeReg s _ _, rfl, fun _ => rfl, rfl, rfl, rfl, rfl, rfl⟩

/-- Settles O44: the redirection to the register. -/
theorem jrJumpsToTheRegister : Obligations.JrJumpsToTheRegister := fun s _ _ _ _ => ⟨_, rfl, setsPc_redirect s _⟩

/-- Settles O45: the link register holds the next address after the call, and `jr` goes where it points. -/
theorem jrThroughTheLinkReturns : Obligations.JrThroughTheLinkReturns := by
  intro s t u address rt rd sh hcall hlink
  obtain ⟨t', hcall', ⟨hra, -⟩, -⟩ := jalLinksAndJumps s address
  obtain rfl : t' = t := Host.Outcome.next.inj (hcall'.symm.trans hcall)
  exact ⟨_, rfl, hlink.trans hra, fun _ => rfl⟩

/-- Settles O46: the meaning of `halt`. -/
theorem haltChangesTheRunStateOnly : Obligations.HaltChangesTheRunStateOnly := fun _ => rfl

end Sys2Proof.Machine
end

section
/-!
The step (43_run_loop.md R153): which of its ends a state comes to, what every step keeps, and that the log takes no part in it.
-/

namespace Sys2Proof.Machine

section Steps

variable {i : Instr} {s s' t : State} {c : Condition} {e : DiagEntry} {rs rt : RegIdx} {imm : Imm16} {ea v p : Word}

/-! ### The step from a running core -/

theorem step_of_outOfFuel (hr : s.runState = .running) (hf : s.fuel = some 0) : step s = .next s.endOutOfFuel := by
  have hf' : s.fuelExhausted = true := s.fuelExhausted_iff.mpr hf
  simp only [step, stepOf, hr, cycle, hf', if_true]

theorem step_of_pcExhausted (hr : s.runState = .running) (hf : s.fuel ≠ some 0) (hp : staticDataBase ≤ s.pc.toNat) :
    step s = .next (s.halt .rangeExhausted) := by
  have hf' : s.fuelExhausted = false := Bool.eq_false_iff.mpr (s.fuelExhausted_iff.not.mpr hf)
  have hp' : s.pcExhausted = true := s.pcExhausted_iff.mpr hp
  simp only [step, stepOf, hr, cycle, hf', hp', Bool.false_eq_true, if_true, if_false]

theorem step_of_fetch (hr : s.runState = .running) (hf : s.fuel ≠ some 0) (hp : s.pc.toNat < staticDataBase)
    (hw : s.memRead s.pc = some v) : step s = afterExec (execWord v s) := by
  have hf' : s.fuelExhausted = false := Bool.eq_false_iff.mpr (s.fuelExhausted_iff.not.mpr hf)
  have hp' : s.pcExhausted = false := Bool.eq_false_iff.mpr (s.pcExhausted_iff.not.mpr (Nat.not_le.mpr hp))
  simp only [step, stepOf, hr, cycle, hf', hp', Bool.false_eq_true, if_false, fetchAndExec, hw]

theorem step_of_decodes (hr : s.runState = .running) (hf : s.fuel ≠ some 0) (hp : s.pc.toNat < staticDataBase)
    (hd : decodeWord s.cfg (s.mem.read s.pc.toNat) = .ok i) (he : exec i s = .next t) : step s = .next t.spendFuel := by
  rw [step_of_fetch hr hf hp (memRead_in_text hp), execWord, hd]
  simp only [he, afterExec]

theorem step_of_undefined (hr : s.runState = .running) (hf : s.fuel ≠ some 0) (hp : s.pc.toNat < staticDataBase)
    (hd : opOf s.cfg (decode (s.mem.read s.pc.toNat)) = none) :
    step s = .next (s.report (.unsupportedInstruction (s.mem.read s.pc.toNat))).spendFuel := by
  rw [step_of_fetch hr hf hp (memRead_in_text hp), execWord, decodeWord_eq_error.mpr ⟨hd, rfl⟩]
  rfl

/-- The fetched word of a core in the text range. -/
theorem mem_read_of_memRead (hp : s.pc.toNat < staticDataBase) (hw : s.memRead s.pc = some v) : s.mem.read s.pc.toNat = v :=
  Option.some.inj ((memRead_in_text hp).symm.trans hw)

/-! ### The fuel counter after an instruction -/

theorem State.spendFuel_eq (s : State) :
    s.spendFuel = { s with fuel := if s.runState = .running then s.fuel.map (fun n => n - 1) else s.fuel } := by
  unfold State.spendFuel
  split
  · rfl
  · rfl

/-- A counter that stood at neither 0 nor 1 is not at 0 after one unit is spent. -/
theorem fuel_left {f : Option Nat} (h0 : f ≠ some 0) (h1 : f ≠ some 1) : (f.map fun n => n - 1) ≠ some 0 := by
  intro h
  obtain ⟨n, rfl, hn⟩ := Option.map_eq_some_iff.mp h
  obtain rfl | rfl : n = 0 ∨ n = 1 := by omega
  exacts [h0 rfl, h1 rfl]

theorem State.spendFuel_of_not_running (h : s.runState ≠ .running) : s.spendFuel = s := if_neg h

/-! ### What every instruction keeps -/

theorem Effect.keeps (h : Effect i s t) : t.fuel = s.fuel ∧ t.cfg = s.cfg ∧ t.loadUsed = s.loadUsed := by
  cases h with
  | overflows | unsupported => exact ⟨s.report_fuel _, s.report_cfg _, s.report_loadUsed _⟩
  | writes | loadFault | storeFault | stores | moves | redirects | links | halts => exact ⟨rfl, rfl, rfl⟩

/-- An instruction leaves the run state as it is or ends the run. -/
theorem Effect.runState_or_ended (h : Effect i s t) : t.runState = s.runState ∨ t.runState.ended = true := by
  cases h with
  | overflows | unsupported =>
    rw [State.report_runState]
    split
    · exact .inr rfl
    · exact .inl rfl
  | writes | stores | moves | redirects | links => exact .inl rfl
  | loadFault | storeFault | halts => exact .inr rfl

/-- An instruction logs nothing, or it is a report. -/
theorem Effect.quiet_or_report (h : Effect i s t) : t.diag = s.diag ∨ ∃ c, t = s.report c := by
  cases h with
  | overflows | unsupported => exact .inr ⟨_, rfl⟩
  | writes | loadFault | storeFault | stores | moves | redirects | links | halts => exact .inl rfl

/-- Only a load or store outside the array ends a run in MemoryRange, and it does nothing else (60_exceptions.md R243). -/
theorem Effect.of_memoryRange (h : Effect i s t) (hr : s.runState = .running) (ht : t.runState = .faulted (.memoryRange ea)) :
    t = s.raise (.memoryRange ea) ∧ memWords ≤ ea.toNat ∧
      ∃ rs rt imm, (i = .lw rs rt imm ∨ i = .sw rs rt imm) ∧ ea = s.effectiveAddress rs imm := by
  cases h with
  | loadFault rs rt imm hi hea => cases ht; exact ⟨rfl, hea, rs, rt, imm, .inl hi, rfl⟩
  | storeFault rs rt imm hi hea => cases ht; exact ⟨rfl, hea, rs, rt, imm, .inr hi, rfl⟩
  | overflows | unsupported => rw [State.report_runState, hr] at ht; split at ht <;> cases ht
  | writes | stores | moves | redirects | links => cases hr.symm.trans ht
  | halts => cases ht

/-! ### What every step keeps -/

theorem StepEffect.keeps (h : StepEffect s t) : t.cfg = s.cfg ∧ t.loadUsed = s.loadUsed := by
  cases h with
  | outOfFuel | rangeExhausted => exact ⟨rfl, rfl⟩
  | executes i u _ _ _ he =>
    rw [State.spendFuel_cfg, State.spendFuel_loadUsed]
    exact (effect_of_exec he).keeps.2
  | undefined => simp

theorem StepEffect.quiet_or_report (h : StepEffect s t) :
    t.diag = s.diag ∨ ∃ c, t.diag = s.diag ++ [{ pc := s.pc, condition := c }] ∧ SameRegs s t ∧ SameMem s t := by
  have reported : ∀ c, (s.report c).spendFuel.diag = s.diag ++ [{ pc := s.pc, condition := c }] ∧
      SameRegs s (s.report c).spendFuel ∧ SameMem s (s.report c).spendFuel :=
    fun c => ⟨by simp, fun k => by simp, fun a => by simp⟩
  cases h with
  | outOfFuel | rangeExhausted => exact .inl rfl
  | undefined w => exact .inr ⟨_, reported _⟩
  | executes i u _ _ _ he =>
    obtain hq | ⟨c, rfl⟩ := (effect_of_exec he).quiet_or_report
    · exact .inl (u.spendFuel_diag.trans hq)
    · exact .inr ⟨c, reported c⟩

/-- A step with fuel left ends the run or spends one unit (R158). -/
theorem StepEffect.ended_or_spends {n : Nat} (h : StepEffect s t) (hr : s.runState = .running) (hf : s.fuel = some (n + 1)) :
    t.runState.ended = true ∨ t.runState = .running ∧ t.fuel = some n := by
  have spends : ∀ {i u}, Effect i s u → u.spendFuel.runState.ended = true ∨
      u.spendFuel.runState = .running ∧ u.spendFuel.fuel = some n := by
    intro i u he
    rw [State.spendFuel_runState]
    obtain hu | hu := he.runState_or_ended
    · have hur : u.runState = .running := hu.trans hr
      refine .inr ⟨hur, ?_⟩
      rw [State.spendFuel_fuel, if_pos hur, he.keeps.1, hf]
      rfl
    · exact .inl hu
  cases h with
  | outOfFuel | rangeExhausted => exact .inl rfl
  | executes i u _ _ _ he => exact spends (effect_of_exec he)
  | undefined w => exact spends (.unsupported (i := .halt) w)

/-! ### The word an UnsupportedInstruction entry holds (60_exceptions.md R242) -/

/-- The entry a report appends holds the pc and the condition. -/
theorem entry_of_report (h : (s.report c).diag = s.diag ++ [e]) : e = { pc := s.pc, condition := c } :=
  (List.singleton_inj.mp (List.append_cancel_left ((s.report_diag c).symm.trans h))).symm

theorem not_appends_of_quiet (hq : t.diag = s.diag) (h : t.diag = s.diag ++ [e]) : False := by
  rw [hq] at h
  simp at h

/-- A checked addition logs no unsupported word. -/
theorem State.addChecked_not_unsupported {d : RegIdx} {a b : Word}
    (h : (s.addChecked d a b).diag = s.diag ++ [{ pc := p, condition := .unsupportedInstruction v }]) : False := by
  obtain ⟨-, e⟩ | ⟨-, e⟩ := s.addChecked_cases d a b
  · rw [e] at h
    cases entry_of_report h
  · rw [e] at h
    exact not_appends_of_quiet rfl h

/-- An instruction that logs UnsupportedInstruction logs its own word, and is not `halt`. -/
theorem exec_unsupported_word (h : exec i s = .next t)
    (ht : t.diag = s.diag ++ [{ pc := p, condition := .unsupportedInstruction v }]) :
    p = s.pc ∧ v = encodeInstr s.cfg i ∧ i ≠ .halt := by
  cases i with
  | lbu | lhu | sb | sh | ll | sc =>
    cases h
    cases entry_of_report ht
    exact ⟨rfl, rfl, nofun⟩
  | add | addi => cases h; exact (State.addChecked_not_unsupported ht).elim
  | lw => exact (not_appends_of_quiet (execLw_diag h) ht).elim
  | sw => exact (not_appends_of_quiet (execSw_diag h) ht).elim
  | beq rs rt imm => cases (execBeq_eq_redirect rs rt imm s).symm.trans h; exact (not_appends_of_quiet rfl ht).elim
  | bne rs rt imm => cases (execBne_eq_redirect rs rt imm s).symm.trans h; exact (not_appends_of_quiet rfl ht).elim
  | j | jal | jr | halt => cases h; exact (not_appends_of_quiet rfl ht).elim
  | sll | srl | addu | sub | subu | and | or | nor | slt | sltu => cases h; exact (not_appends_of_quiet rfl ht).elim
  | addiu | slti | sltiu | andi | ori | lui => cases h; exact (not_appends_of_quiet rfl ht).elim

/-- The word of a decoded instruction other than `halt` is the decoded word: `halt` alone comes from a halt word. -/
theorem encodeInstr_eq_of_decodeWord {cfg : Config} (h : decodeWord cfg v = .ok i) (hi : i ≠ .halt) : encodeInstr cfg i = v := by
  refine encodeOfDecodedWordIsTheWord cfg v i h fun hb => hi ?_
  rw [decodeWord_halt hb] at h
  exact (Except.ok.inj h).symm

/-! ### Registers and memory (10_state.md R13; 20_memory.md R38) -/

theorem State.readReg_addChecked_of_ne {d k : RegIdx} {a b : Word} (h : k ≠ d) :
    (s.addChecked d a b).readReg k = s.readReg k := by
  obtain ⟨-, e⟩ | ⟨-, e⟩ := s.addChecked_cases d a b
  · rw [e, State.readReg_report]
  · rw [e]
    exact s.readReg_writeReg_of_ne _ h

theorem State.addChecked_mem {d : RegIdx} {a b : Word} : (s.addChecked d a b).mem = s.mem := by
  obtain ⟨-, e⟩ | ⟨-, e⟩ := s.addChecked_cases d a b
  · rw [e, State.report_mem]
  · rw [e, State.writeBack_mem]

/-- What `lw` answers: a write-back, or the raised MemoryRange. -/
theorem execLw_inv (h : execLw rs rt imm s = .next t) : (∃ v, t = s.writeBack rt v) ∨ ∃ c, t = s.raise c := by
  obtain hea | hea := Nat.lt_or_ge (s.effectiveAddress rs imm).toNat memWords
  · cases (execLw_inside hea rt).symm.trans h; exact .inl ⟨_, rfl⟩
  · cases (execLw_outside hea rt).symm.trans h; exact .inr ⟨_, rfl⟩

/-- What `sw` answers: the cell written, or the raised MemoryRange. -/
theorem execSw_inv (h : execSw rs rt imm s = .next t) :
    (t = ({ s with mem := s.mem.write (s.effectiveAddress rs imm).toNat (s.readReg rt) } : State).advance) ∨
      ∃ c, t = s.raise c := by
  obtain hea | hea := Nat.lt_or_ge (s.effectiveAddress rs imm).toNat memWords
  · cases (execSw_inside hea rt).symm.trans h; exact .inl rfl
  · cases (execSw_outside hea rt).symm.trans h; exact .inr ⟨_, rfl⟩

/-- An instruction changes no register but its destination. -/
theorem exec_readReg (h : exec i s = .next t) {k : RegIdx} (hk : destination s.cfg i ≠ some k) : t.readReg k = s.readReg k := by
  have other : ∀ {d}, some d ≠ some k → k ≠ d := fun hd e => hd (congrArg some e.symm)
  cases i with
  | add | addi => cases h; exact State.readReg_addChecked_of_ne (other hk)
  | sll | srl | addu | sub | subu | and | or | nor | slt | sltu => cases h; exact s.readReg_writeReg_of_ne _ (other hk)
  | addiu | slti | sltiu | andi | ori | lui => cases h; exact s.readReg_writeReg_of_ne _ (other hk)
  | jal => cases h; exact s.readReg_writeReg_of_ne _ (other hk)
  | lw =>
    obtain ⟨v, rfl⟩ | ⟨c, rfl⟩ := execLw_inv h
    · exact s.readReg_writeReg_of_ne _ (other hk)
    · rfl
  | sw => obtain rfl | ⟨c, rfl⟩ := execSw_inv h <;> rfl
  | beq rs rt imm => cases (execBeq_eq_redirect rs rt imm s).symm.trans h; rfl
  | bne rs rt imm => cases (execBne_eq_redirect rs rt imm s).symm.trans h; rfl
  | lbu | lhu | sb | sh | ll | sc => cases h; exact s.readReg_report _ k
  | j | jr | halt => cases h; rfl

/-- No instruction but `sw` changes memory. -/
theorem exec_mem (h : exec i s = .next t) (hi : ∀ rs rt imm, i ≠ .sw rs rt imm) : t.mem = s.mem := by
  cases i with
  | sw rs rt imm => exact absurd rfl (hi rs rt imm)
  | add | addi => cases h; exact State.addChecked_mem
  | lw => obtain ⟨v, rfl⟩ | ⟨c, rfl⟩ := execLw_inv h <;> rfl
  | beq rs rt imm => cases (execBeq_eq_redirect rs rt imm s).symm.trans h; rfl
  | bne rs rt imm => cases (execBne_eq_redirect rs rt imm s).symm.trans h; rfl
  | lbu | lhu | sb | sh | ll | sc => cases h; exact s.report_mem _
  | sll | srl | addu | sub | subu | and | or | nor | slt | sltu => cases h; rfl
  | addiu | slti | sltiu | andi | ori | lui => cases h; rfl
  | j | jal | jr | halt => cases h; rfl

/-- `sw` changes no cell but the one at its effective address. -/
theorem execSw_memRead_of_ne (h : execSw rs rt imm s = .next t) {a : Word} (ha : a ≠ s.effectiveAddress rs imm) :
    t.memRead a = s.memRead a := by
  obtain rfl | ⟨c, rfl⟩ := execSw_inv h
  · exact State.memRead_congr (Memory.read_write_of_ne _ s.mem fun e => ha (BitVec.eq_of_toNat_eq e))
  · rfl

/-! ### States that differ in their logs only (10_state.md R19) -/

theorem SameButDiag.exists_diag (h : SameButDiag s s') : ∃ l, s' = { s with diag := l } := by
  obtain ⟨h1, h2, h3, h4, h5, h6, h7⟩ := h
  cases s
  cases s'
  cases h1; cases h2; cases h3; cases h4; cases h5; cases h6; cases h7
  exact ⟨_, rfl⟩

theorem sameButDiag_with (s : State) (l : List DiagEntry) : SameButDiag s { s with diag := l } :=
  ⟨rfl, rfl, rfl, rfl, rfl, rfl, rfl⟩

theorem SameButDiag.report (h : SameButDiag s s') (c : Condition) : SameButDiag (s.report c) (s'.report c) := by
  obtain ⟨l, rfl⟩ := h.exists_diag
  unfold State.report
  split <;> exact sameButDiag_with _ _

theorem SameButDiag.spendFuel (h : SameButDiag s s') : SameButDiag s.spendFuel s'.spendFuel := by
  obtain ⟨l, rfl⟩ := h.exists_diag
  unfold State.spendFuel
  split <;> exact sameButDiag_with _ _

theorem SameButDiag.addChecked (h : SameButDiag s s') (d : RegIdx) (a b : Word) :
    SameButDiag (s.addChecked d a b) (s'.addChecked d a b) := by
  unfold State.addChecked
  split
  · exact h.report _
  · obtain ⟨l, rfl⟩ := h.exists_diag
    exact sameButDiag_with _ _

/-- Two outcomes are next states that differ at most in their logs. -/
def SameNext (x y : Result) : Prop := ∃ t t', x = .next t ∧ y = .next t' ∧ SameButDiag t t'

/-- No instruction reads the log. -/
theorem exec_sameNext (h : SameButDiag s s') (i : Instr) : SameNext (exec i s) (exec i s') := by
  obtain ⟨l, rfl⟩ := h.exists_diag
  cases i with
  | add | addi => exact ⟨_, _, rfl, rfl, h.addChecked _ _ _⟩
  | lw rs rt imm =>
    obtain hea | hea := Nat.lt_or_ge (s.effectiveAddress rs imm).toNat memWords
    · exact ⟨_, _, execLw_inside hea rt, execLw_inside (s := { s with diag := l }) hea rt, sameButDiag_with _ _⟩
    · exact ⟨_, _, execLw_outside hea rt, execLw_outside (s := { s with diag := l }) hea rt, sameButDiag_with _ _⟩
  | sw rs rt imm =>
    obtain hea | hea := Nat.lt_or_ge (s.effectiveAddress rs imm).toNat memWords
    · exact ⟨_, _, execSw_inside hea rt, execSw_inside (s := { s with diag := l }) hea rt, sameButDiag_with _ _⟩
    · exact ⟨_, _, execSw_outside hea rt, execSw_outside (s := { s with diag := l }) hea rt, sameButDiag_with _ _⟩
  | beq rs rt imm => exact ⟨_, _, execBeq_eq_redirect rs rt imm s, execBeq_eq_redirect rs rt imm _, sameButDiag_with _ _⟩
  | bne rs rt imm => exact ⟨_, _, execBne_eq_redirect rs rt imm s, execBne_eq_redirect rs rt imm _, sameButDiag_with _ _⟩
  | lbu | lhu | sb | sh | ll | sc => exact ⟨_, _, rfl, rfl, h.report _⟩
  | sll | srl | addu | sub | subu | and | or | nor | slt | sltu => exact ⟨_, _, rfl, rfl, sameButDiag_with _ _⟩
  | addiu | slti | sltiu | andi | ori | lui => exact ⟨_, _, rfl, rfl, sameButDiag_with _ _⟩
  | j | jal | jr | halt => exact ⟨_, _, rfl, rfl, sameButDiag_with _ _⟩

/-- No step of a running core reads the log. -/
theorem step_sameNext (h : SameButDiag s s') (hr : s.runState = .running) : SameNext (step s) (step s') := by
  obtain ⟨l, rfl⟩ := h.exists_diag
  obtain ⟨t, ht⟩ := running_steps hr
  obtain ⟨-, he⟩ := stepEffect_of_step ht
  rw [ht]
  cases he with
  | outOfFuel hf => exact ⟨_, _, rfl, step_of_outOfFuel (s := { s with diag := l }) hr hf, sameButDiag_with _ _⟩
  | rangeExhausted hf hp => exact ⟨_, _, rfl, step_of_pcExhausted (s := { s with diag := l }) hr hf hp, sameButDiag_with _ _⟩
  | executes i u hf hp hd hu =>
    obtain ⟨v, v', hv, hv', hsame⟩ := exec_sameNext h i
    obtain rfl : v = u := Host.Outcome.next.inj (hv.symm.trans hu)
    exact ⟨_, _, rfl, step_of_decodes (s := { s with diag := l }) hr hf hp hd hv', hsame.spendFuel⟩
  | undefined w hf hp hd =>
    obtain ⟨hop, hw⟩ := decodeWord_eq_error.mp hd
    cases hw
    exact ⟨_, _, rfl, step_of_undefined (s := { s with diag := l }) hr hf hp hop, (h.report _).spendFuel⟩

theorem step_eq_fault (h : s.runState ≠ .running) : ∃ r, ∀ u : State, u.runState = s.runState → step u = .fault r := by
  cases hr : s.runState with
  | running => exact absurd hr h
  | idle => exact ⟨.idle, fun u hu => by simp only [step, stepOf, hu]⟩
  | halted _ | faulted _ | outOfFuel => exact ⟨.ended, fun u hu => by simp only [step, stepOf, hu]⟩

end Steps

/-- Settles O11: the instruction answers a next state, and the fuel counter is spent after it. -/
theorem stepRunsTheDecodedInstruction : Obligations.StepRunsTheDecodedInstruction := by
  intro s w i hr hf hp hw hd
  obtain ⟨t, he, -⟩ := exec_effect i s
  rw [← mem_read_of_memRead hp hw] at hd
  exact ⟨t, he, by rw [step_of_decodes hr hf hp hd he, State.spendFuel_eq]⟩

/-- Settles O12: the report of the word, and the fuel counter spent if the run goes on. -/
theorem undefinedEncodingIsReported : Obligations.UndefinedEncodingIsReported := by
  intro s w hr hf hp hw hd
  obtain rfl := mem_read_of_memRead hp hw
  refine ⟨_, reports_report s _, ?_⟩
  rw [step_of_undefined hr hf hp hd, State.spendFuel_eq, State.report_runState, State.report_fuel, hr]
  cases s.cfg.runtimeFatal <;> rfl

/-- Settles O13: the fuel test, the range test and the halt word, in the order of the step. -/
theorem runEndsLeaveTheRestUnchanged : Obligations.RunEndsLeaveTheRestUnchanged := by
  intro s hr
  refine ⟨step_of_outOfFuel hr, step_of_pcExhausted hr, fun hf hp w hw hb => ?_⟩
  rw [← mem_read_of_memRead hp hw] at hb
  exact step_of_decodes hr hf hp (decodeWord_halt hb) rfl

/-- Settles O14, by the run states. -/
theorem exactlyRunningCoresStep : Obligations.ExactlyRunningCoresStep := by
  refine fun s => ⟨⟨fun ⟨t, ht⟩ => (stepEffect_of_step ht).1, running_steps⟩, fun h => ?_⟩
  cases hr : s.runState with
  | idle | running => rw [hr] at h; cases h
  | halted _ | faulted _ | outOfFuel => simp only [step, stepOf, hr]

/-- Settles O15: among the effects of a step only a load or store outside the array raises MemoryRange. -/
theorem onlyDataAccessesRaiseMemoryRange : Obligations.OnlyDataAccessesRaiseMemoryRange := by
  intro s t ea h ht
  obtain ⟨hr, he⟩ := stepEffect_of_step h
  cases he with
  | outOfFuel | rangeExhausted => cases ht
  | undefined w =>
    rw [State.spendFuel_runState] at ht
    obtain ⟨-, -, rs, rt, imm, hi | hi, -⟩ := (Effect.unsupported (i := .halt) w).of_memoryRange hr ht <;> cases hi
  | executes i u _ _ hd hu =>
    rw [State.spendFuel_runState] at ht
    obtain ⟨rfl, hea, rs, rt, imm, hi, heq⟩ := (effect_of_exec hu).of_memoryRange hr ht
    have hacc : decodeWord s.cfg (s.mem.read s.pc.toNat) = .ok (.lw rs rt imm) ∨
        decodeWord s.cfg (s.mem.read s.pc.toNat) = .ok (.sw rs rt imm) :=
      hi.imp (fun hi => hd.trans (congrArg _ hi)) (fun hi => hd.trans (congrArg _ hi))
    exact ⟨State.spendFuel_of_not_running nofun, hea, rs, rt, imm, hacc, heq⟩

/-- Settles O16: every effect of a step is quiet or a report. -/
theorem stepLogsAtMostOnceAndPrecisely : Obligations.StepLogsAtMostOnceAndPrecisely :=
  fun _ _ h => (stepEffect_of_step h).2.quiet_or_report

/-- Settles O17: no operation of a step reads the log. -/
theorem logIsNotObservable : Obligations.LogIsNotObservable := by
  intro s s' h
  by_cases hr : s.runState = .running
  · exact .inl (step_sameNext h hr)
  · obtain ⟨r, hfault⟩ := step_eq_fault hr
    obtain ⟨l, rfl⟩ := h.exists_diag
    exact .inr ⟨r, hfault s rfl, hfault { s with diag := l } rfl⟩

/-- Settles O18, by the effects of a step. -/
theorem stepKeepsTheParameters : Obligations.StepKeepsTheParameters := fun _ _ h => (stepEffect_of_step h).2.keeps

/-- A state from which a step leads to an end leads to that end. -/
theorem Reaches.head {s t u : State} (hstep : step s = .next t) (h : Reaches t u) : Reaches s u := by
  induction h with
  | refl => exact .tail (.refl s) hstep
  | tail _ hlast ih => exact .tail ih hlast

/-- Settles O19, by induction on the fuel counter: a step spends a unit or ends the run. -/
theorem fuelEndsEveryRun : Obligations.FuelEndsEveryRun := by
  intro n
  induction n with
  | zero => exact fun s hr hf => ⟨_, .tail (.refl s) (step_of_outOfFuel hr hf), rfl⟩
  | succ n ih =>
    intro s hr hf
    obtain ⟨t, ht⟩ := running_steps hr
    obtain hend | ⟨htr, htf⟩ := (stepEffect_of_step ht).2.ended_or_spends hr hf
    · exact ⟨t, .tail (.refl s) ht, hend⟩
    · obtain ⟨u, hu, hend⟩ := ih t htr htf
      exact ⟨u, hu.head ht, hend⟩

/-- Settles O20: the store leaves a running core with fuel at the next pc, whose cell holds the stored word. -/
theorem storeToTheNextPcIsExecuted : Obligations.StoreToTheNextPcIsExecuted := by
  intro s t rs rt imm hinv hr hf0 hf1 hp hd hea hstep
  have hp' : s.pc.toNat + 1 < staticDataBase := hp
  have hnext : (s.pc + 1).toNat = s.pc.toNat + 1 := by
    rw [BitVec.toNat_add]
    exact Nat.mod_eq_of_lt (hp.trans (by decide))
  have hin : (s.effectiveAddress rs imm).toNat < memWords := by
    rw [hea, hnext]
    exact hp.trans (by decide)
  have he := execSw_inside hin rt
  rw [hea, hnext] at he
  have ht : t = _ := Host.Outcome.next.inj (hstep.symm.trans (step_of_decodes hr hf0 (Nat.lt_of_succ_lt hp') hd he))
  have htr : t.runState = .running := by rw [ht]; simpa using hr
  have htpc : t.pc = s.pc + 1 := by rw [ht]; simp
  have htmem : t.mem = s.mem.write (s.pc.toNat + 1) (s.readReg rt) := by rw [ht]; simp
  have htfuel : t.fuel = s.fuel.map fun n => n - 1 := by rw [ht]; exact (State.spendFuel_fuel _).trans (if_pos hr)
  have htp : t.pc.toNat < staticDataBase := by rw [htpc, hnext]; exact hp'
  have hread : t.memRead t.pc = some (s.readReg rt) := by
    rw [memRead_in_text htp, htmem, htpc, Memory.read_write hinv.memory, if_pos hnext]
  exact ⟨htpc, hread, step_of_fetch htr (htfuel ▸ fuel_left hf0 hf1) htp hread⟩

/-- Settles O22: the destination, the store's cell, and what every instruction keeps. -/
theorem everyInstructionKeepsItsFrame : Obligations.EveryInstructionKeepsItsFrame := by
  intro i s t h
  refine ⟨fun k hk => exec_readReg h hk, fun hi a => ?_, ?_, (effect_of_exec h).keeps⟩
  · exact State.memRead_congr (congrArg (Memory.read · a.toNat) (exec_mem h hi))
  · rintro rs rt imm rfl a ha
    exact execSw_memRead_of_ne h ha

/-- Settles O23: no meaning uses a field that `clearIgnored` clears. -/
theorem ignoredFieldsHaveNoEffect : Obligations.IgnoredFieldsHaveNoEffect := fun i s => by cases i <;> rfl

/-- Settles O38: an unimplemented instruction logs its own word, which is the decoded word; an undefined encoding logs the word. -/
theorem reportedWordIsTheFetchedWord : Obligations.ReportedWordIsTheFetchedWord := by
  intro s t w v p h hw ht
  obtain ⟨-, he⟩ := stepEffect_of_step h
  cases he with
  | outOfFuel | rangeExhausted => exact (not_appends_of_quiet rfl ht).elim
  | executes i u _ hp hd hu =>
    rw [State.spendFuel_diag] at ht
    rw [mem_read_of_memRead hp hw] at hd
    obtain ⟨rfl, rfl, hi⟩ := exec_unsupported_word hu ht
    exact ⟨encodeInstr_eq_of_decodeWord hd hi, rfl⟩
  | undefined w' _ hp hd =>
    rw [State.spendFuel_diag] at ht
    rw [mem_read_of_memRead hp hw] at hd
    obtain ⟨-, hw'⟩ := decodeWord_eq_error.mp hd
    cases hw'
    cases entry_of_report ht
    exact ⟨rfl, rfl⟩

end Sys2Proof.Machine
end

section
/-!
The invariant of the machine, said as one clause for each run state beside the clauses that hold in all of them, and what keeps it:
reset, every step and every host action.
-/

namespace Sys2Proof.Machine

/-- The clauses of the invariant that do not ask for the run state. -/
structure State.Sound (s : State) : Prop where
  memory : Memory.wf s.mem = true
  fuelGiven : s.fuel.isSome = s.cfg.fuel.isSome
  fuelBound : ∀ n limit, s.fuel = some n → s.cfg.fuel = some limit → n ≤ limit
  diagInRange : ∀ e ∈ s.diag, e.pc.toNat < staticDataBase
  diagOverflows : ∀ e ∈ s.diag, ∀ a b, e.condition = .arithmeticOverflow a b → addOverflows a b = true

/-- With RUNTIME_FATAL nothing is logged yet (60_exceptions.md R245). -/
def State.Quiet (s : State) : Prop := s.cfg.runtimeFatal = true → s.diag = []

/-- The clause of the invariant for the run state `r`. -/
def State.Fits (s : State) : RunState → Prop
  | .idle => s.pc = BitVec.ofNat 32 textBase ∧ s.diag = [] ∧ s.fuel = s.cfg.fuel
  | .running => s.Quiet
  | .halted .sentinel =>
    s.Quiet ∧ s.pc.toNat < staticDataBase ∧ decodeWord s.cfg (s.mem.read s.pc.toNat) = .ok .halt
  | .halted .rangeExhausted => s.Quiet ∧ staticDataBase ≤ s.pc.toNat
  | .faulted (.memoryRange ea) => s.Quiet ∧ memWords ≤ ea.toNat ∧ s.accessesAt ea
  | .faulted (.reported c) => s.cfg.runtimeFatal = true ∧ s.diag = [{ pc := s.pc, condition := c }]
  | .outOfFuel => s.Quiet ∧ s.fuel = some 0

section Invariant

variable {i : Instr} {s t : State} {c : Condition} {r : RunState}

/-- The invariant from the clause of the state's run state. -/
theorem inv_of_fits (hs : s.Sound) (hr : s.runState = r) (hf : s.Fits r) : s.Inv where
  memory := hs.memory
  fuelGiven := hs.fuelGiven
  fuelBound := hs.fuelBound
  idleFresh h := by cases hr.symm.trans h; exact hf
  sentinelAtPc h := by cases hr.symm.trans h; exact hf.2
  rangeAtPc h := by cases hr.symm.trans h; exact hf.2
  rangeFault ea h := by cases hr.symm.trans h; exact hf.2
  reportedFault c h := by cases hr.symm.trans h; exact hf
  fatalQuiet hfatal h := by
    rw [hr] at h
    match r, hf with
    | .idle, hf => exact hf.2.1
    | .running, hf => exact hf hfatal
    | .halted .sentinel, hf => exact hf.1 hfatal
    | .halted .rangeExhausted, hf => exact hf.1 hfatal
    | .faulted (.memoryRange _), hf => exact hf.1 hfatal
    | .faulted (.reported c), _ => exact absurd rfl (h c)
    | .outOfFuel, hf => exact hf.1 hfatal
  outOfFuelAtZero h := by cases hr.symm.trans h; exact hf.2
  diagInRange := hs.diagInRange
  diagOverflows := hs.diagOverflows

theorem State.Inv.sound (h : s.Inv) : s.Sound := ⟨h.memory, h.fuelGiven, h.fuelBound, h.diagInRange, h.diagOverflows⟩

theorem State.Inv.quiet (h : s.Inv) (hr : s.runState = .running) : s.Quiet :=
  fun hf => h.fatalQuiet hf fun c => by rw [hr]; exact nofun

/-! ### Updates that keep the clauses -/

/-- The clauses that do not ask for the run state ask for memory, the fuel counter, its limit and the log. -/
theorem State.Sound.congr (h : s.Sound) (hm : t.mem = s.mem) (hf : t.fuel = s.fuel) (hc : t.cfg = s.cfg) (hd : t.diag = s.diag) :
    t.Sound := by
  refine ⟨?_, ?_, ?_, ?_, ?_⟩
  · rw [hm]; exact h.memory
  · rw [hf, hc]; exact h.fuelGiven
  · rw [hf, hc]; exact h.fuelBound
  · rw [hd]; exact h.diagInRange
  · rw [hd]; exact h.diagOverflows

theorem State.Sound.write (h : s.Sound) {a : Nat} (ha : a < memWords) (v : Word) : { s with mem := s.mem.write a v }.Sound :=
  { h with memory := Memory.wf_write h.memory ha v }

theorem State.Sound.spendFuel (h : s.Sound) : s.spendFuel.Sound := by
  unfold State.spendFuel
  split
  · refine { h with fuelGiven := ?_, fuelBound := fun n limit hn hl => ?_ }
    · rw [Option.isSome_map]
      exact h.fuelGiven
    · obtain ⟨k, hk, rfl⟩ := Option.map_eq_some_iff.mp hn
      exact (Nat.sub_le k 1).trans (h.fuelBound k limit hk hl)
  · exact h

theorem State.Sound.report (h : s.Sound) (hp : s.pc.toNat < staticDataBase)
    (hc : ∀ a b, c = .arithmeticOverflow a b → addOverflows a b = true) : (s.report c).Sound := by
  refine ⟨?_, ?_, ?_, ?_, ?_⟩
  · rw [State.report_mem]; exact h.memory
  · rw [State.report_fuel, State.report_cfg]; exact h.fuelGiven
  · rw [State.report_fuel, State.report_cfg]; exact h.fuelBound
  · rw [State.report_diag]
    exact List.forall_mem_append.mpr ⟨h.diagInRange, List.forall_mem_singleton.mpr hp⟩
  · rw [State.report_diag]
    exact List.forall_mem_append.mpr ⟨h.diagOverflows, List.forall_mem_singleton.mpr hc⟩

/-! ### The ends and the continuations of a step -/

/-- A running core that goes on and logs nothing keeps the invariant. -/
theorem inv_of_continues (hs : t.Sound) (hq : s.Quiet) (hr : t.runState = .running) (hc : t.cfg = s.cfg) (hd : t.diag = s.diag) :
    t.spendFuel.Inv := by
  refine inv_of_fits hs.spendFuel ((State.spendFuel_runState t).trans hr) fun hf => ?_
  rw [State.spendFuel_cfg, hc] at hf
  rw [State.spendFuel_diag, hd]
  exact hq hf

/-- A report in the text range keeps the invariant, with and without RUNTIME_FATAL. -/
theorem inv_of_report (hs : s.Sound) (hq : s.Quiet) (hr : s.runState = .running) (hp : s.pc.toNat < staticDataBase)
    (hc : ∀ a b, c = .arithmeticOverflow a b → addOverflows a b = true) : (s.report c).spendFuel.Inv := by
  refine inv_of_fits (hs.report hp hc).spendFuel (State.spendFuel_runState _) ?_
  rw [State.report_runState, hr]
  by_cases hf : s.cfg.runtimeFatal = true
  · rw [if_pos hf]
    refine ⟨by simpa using hf, ?_⟩
    simp [hf, hq hf]
  · rw [if_neg hf]
    intro hf'
    exact absurd (by simpa using hf') hf

/-- Every effect of the instruction at the pc keeps the invariant. -/
theorem Effect.keeps_inv (h : Effect i s t) (hinv : s.Inv) (hr : s.runState = .running) (hp : s.pc.toNat < staticDataBase)
    (hd : decodeWord s.cfg (s.mem.read s.pc.toNat) = .ok i) : t.spendFuel.Inv := by
  have hs := hinv.sound
  have hq := hinv.quiet hr
  cases h with
  | writes | moves | redirects | links => exact inv_of_continues (hs.congr rfl rfl rfl rfl) hq hr rfl rfl
  | stores a v ha => exact inv_of_continues ((hs.write ha v).congr rfl rfl rfl rfl) hq hr rfl rfl
  | overflows a b ho => exact inv_of_report hs hq hr hp fun a' b' e => by cases e; exact ho
  | unsupported w => exact inv_of_report hs hq hr hp nofun
  | loadFault rs rt imm hi hea =>
    exact inv_of_fits (hs.congr rfl rfl rfl rfl) rfl ⟨hq, hea, rs, rt, imm, .inl (hi ▸ hd), rfl⟩
  | storeFault rs rt imm hi hea =>
    exact inv_of_fits (hs.congr rfl rfl rfl rfl) rfl ⟨hq, hea, rs, rt, imm, .inr (hi ▸ hd), rfl⟩
  | halts hi =>
    exact inv_of_fits (hs.congr rfl rfl rfl rfl) rfl ⟨hq, hp, hi ▸ hd⟩

theorem StepEffect.keeps_inv (h : StepEffect s t) (hinv : s.Inv) (hr : s.runState = .running) : t.Inv := by
  have hs := hinv.sound
  have hq := hinv.quiet hr
  cases h with
  | outOfFuel hf => exact inv_of_fits (hs.congr rfl rfl rfl rfl) rfl ⟨hq, hf⟩
  | rangeExhausted _ hp => exact inv_of_fits (hs.congr rfl rfl rfl rfl) rfl ⟨hq, hp⟩
  | executes i u _ hp hd he => exact (effect_of_exec he).keeps_inv hinv hr hp hd
  | undefined w _ hp => exact inv_of_report hs hq hr hp nofun

/-! ### Reset and the host (43_run_loop.md R152) -/

theorem inv_resetWith (cfg : Config) : (State.resetWith cfg).Inv := by
  refine inv_of_fits (r := .idle) ⟨rfl, rfl, fun n limit hn hl => ?_, nofun, nofun⟩ rfl ⟨rfl, rfl, rfl⟩
  exact (Option.some.inj (hn.symm.trans hl)).le

/-- An idle core whose pc, log, fuel counter and parameters are kept, and whose memory stays canonical, keeps the invariant. -/
theorem inv_of_idle (hinv : s.Inv) (hr : s.runState = .idle) (ht : t.runState = .idle) (hm : Memory.wf t.mem = true)
    (hpc : t.pc = s.pc) (hd : t.diag = s.diag) (hf : t.fuel = s.fuel) (hc : t.cfg = s.cfg) : t.Inv := by
  obtain ⟨hpc', hd', hf'⟩ := hinv.idleFresh hr
  have hs : { s with mem := t.mem }.Sound := { hinv.sound with memory := hm }
  exact inv_of_fits (hs.congr rfl hf hc hd) ht ⟨hpc.trans hpc', hd.trans hd', by rw [hf, hc, hf']⟩

theorem inv_startRun (hinv : s.Inv) (hr : s.runState = .idle) : s.startRun.Inv := by
  obtain ⟨-, hd, -⟩ := hinv.idleFresh hr
  exact inv_of_fits (hinv.sound.congr rfl rfl rfl rfl) rfl fun _ => hd

end Invariant

/-! ### The host's actions -/

section Actions

variable {s t : State} {a : HostAction} {p : Program} {e : LoadError}

theorem hostAct_of_running (h : s.runState = .running) (a : HostAction) : hostAct a s = .refused .running := if_pos h

theorem hostAct_reset (h : s.runState ≠ .running) : hostAct .reset s = .done (State.resetWith s.cfg) := if_neg h

theorem hostAct_setReg (h : s.runState = .idle) (i : RegIdx) (v : Word) : hostAct (.setReg i v) s = .done (s.writeReg i v) := by
  simp only [hostAct, hostActAtRest, h, reduceCtorEq, if_true, if_false]

theorem hostAct_run (h : s.runState = .idle) : hostAct .run s = .done s.startRun := by
  simp only [hostAct, hostActAtRest, h, reduceCtorEq, if_true, if_false]

theorem hostAct_load (h : s.runState = .idle) (p : Program) : hostAct (.load p) s = s.hostLoad p := by
  simp only [hostAct, hostActAtRest, h, reduceCtorEq, if_true, if_false]

theorem hostAct_of_ended (h : s.runState.ended = true) (ha : a ≠ .reset) : hostAct a s = .refused .notIdle := by
  have hr : s.runState ≠ .running := fun e => by rw [e] at h; cases h
  have hi : s.runState ≠ .idle := fun e => by rw [e] at h; cases h
  cases a with
  | reset => exact absurd rfl ha
  | setReg | load | run => simp only [hostAct, hostActAtRest, hr, hi, if_false]

/-- Every run state is idle, running, or ended. -/
theorem runState_cases (r : RunState) : r = .idle ∨ r = .running ∨ r.ended = true := by
  cases r with
  | idle => exact .inl rfl
  | running => exact .inr (.inl rfl)
  | halted | faulted | outOfFuel => exact .inr (.inr rfl)

theorem State.loadProgram_of_error (s : State) (h : loadCheck p = some e) : s.loadProgram p = .error e := by
  unfold State.loadProgram
  rw [h]

theorem hostLoad_of_used (h : s.loadUsed = true) (p : Program) : s.hostLoad p = .refused .secondLoad := if_pos h

theorem hostLoad_of_check (h : s.loadUsed = false) (hc : loadCheck p = none) :
    s.hostLoad p = .done ({ s with mem := s.mem.loadProgram p } : State).useLoad := by
  simp only [State.hostLoad, h, Bool.false_eq_true, if_false, s.loadProgram_of_check hc]

theorem hostLoad_of_error (h : s.loadUsed = false) (hc : loadCheck p = some e) :
    s.hostLoad p = .loadFailed e s.useLoad := by
  simp only [State.hostLoad, h, Bool.false_eq_true, if_false, s.loadProgram_of_error hc]

/-- What an action that is not refused makes of the core. -/
inductive HostEffect (s : State) : State → Prop where
  | reset : HostEffect s (State.resetWith s.cfg)
  | setReg (hr : s.runState = .idle) (i : RegIdx) (v : Word) : HostEffect s (s.writeReg i v)
  | run (hr : s.runState = .idle) : HostEffect s s.startRun
  | loads (hr : s.runState = .idle) (p : Program) (hc : loadCheck p = none) :
      HostEffect s ({ s with mem := s.mem.loadProgram p } : State).useLoad
  | fails (hr : s.runState = .idle) : HostEffect s s.useLoad

/-- The inversion of a Load. -/
theorem hostEffect_of_hostLoad (hr : s.runState = .idle) (h : s.hostLoad p = .done t ∨ ∃ e, s.hostLoad p = .loadFailed e t) :
    HostEffect s t := by
  cases hu : s.loadUsed with
  | true => rw [hostLoad_of_used hu] at h; obtain h | ⟨_, h⟩ := h <;> cases h
  | false =>
    cases hc : loadCheck p with
    | none =>
      rw [hostLoad_of_check hu hc] at h
      obtain h | ⟨_, h⟩ := h <;> cases h
      exact .loads hr p hc
    | some e =>
      rw [hostLoad_of_error hu hc] at h
      obtain h | ⟨_, h⟩ := h <;> cases h
      exact .fails hr

/-- The inversion of a host action. -/
theorem hostEffect_of_hostAct (h : hostAct a s = .done t ∨ ∃ e, hostAct a s = .loadFailed e t) : HostEffect s t := by
  obtain hr | hr | hr := runState_cases s.runState
  · cases a with
    | reset => rw [hostAct_reset (by rw [hr]; nofun)] at h; obtain h | ⟨_, h⟩ := h <;> cases h; exact .reset
    | setReg i v => rw [hostAct_setReg hr] at h; obtain h | ⟨_, h⟩ := h <;> cases h; exact .setReg hr i v
    | load p => rw [hostAct_load hr] at h; exact hostEffect_of_hostLoad hr h
    | run => rw [hostAct_run hr] at h; obtain h | ⟨_, h⟩ := h <;> cases h; exact .run hr
  · rw [hostAct_of_running hr] at h
    obtain h | ⟨_, h⟩ := h <;> cases h
  · by_cases ha : a = .reset
    · rw [ha, hostAct_reset (fun e => by rw [e] at hr; cases hr)] at h
      obtain h | ⟨_, h⟩ := h <;> cases h
      exact .reset
    · rw [hostAct_of_ended hr ha] at h
      obtain h | ⟨_, h⟩ := h <;> cases h

theorem HostEffect.keeps_inv (h : HostEffect s t) (hinv : s.Inv) : t.Inv := by
  cases h with
  | reset => exact inv_resetWith s.cfg
  | setReg hr i v => exact inv_of_idle hinv hr hr hinv.memory rfl rfl rfl rfl
  | run hr => exact inv_startRun hinv hr
  | loads hr p hc =>
    have hm : Memory.wf (s.mem.loadProgram p) = true := State.wf_loadProgram hinv.memory (s.loadProgram_of_check hc)
    exact inv_of_idle hinv hr hr hm rfl rfl rfl rfl
  | fails hr => exact inv_of_idle hinv hr hr hinv.memory rfl rfl rfl rfl

/-- The checks of R151 in their order, with their thresholds as numbers. -/
theorem loadCheck_eq (p : Program) :
    loadCheck p = if 0x0FC00000 < p.bin.length then some (.programTooLarge 0x00400000 p.bin.length)
      else if 0x8000 < p.staticData.length then some (.dataTooLarge 0x10000000 p.staticData.length) else none := rfl

end Actions

/-- Settles O7: the fields of the reset state, and the default parameters. -/
theorem resetLeavesTheListedValues : Obligations.ResetLeavesTheListedValues := by
  refine ⟨fun cfg => ⟨State.readReg_resetWith cfg, rfl, fun a ha => ?_, rfl, rfl, rfl, rfl⟩, rfl, rfl, rfl, rfl, rfl, by decide⟩
  exact if_pos ha

/-- Settles O8: the reset state is idle and fresh. -/
theorem resetMeetsTheInvariant : Obligations.ResetMeetsTheInvariant := inv_resetWith

/-- Settles O9, by the effects of a step. -/
theorem stepKeepsTheInvariant : Obligations.StepKeepsTheInvariant := by
  intro s t hinv h
  obtain ⟨hr, he⟩ := stepEffect_of_step h
  exact he.keeps_inv hinv hr

/-- Settles O10, by the effects of an action that is not refused. -/
theorem hostActionsKeepTheInvariant : Obligations.HostActionsKeepTheInvariant :=
  fun _ _ _ hinv h => (hostEffect_of_hostAct h).keeps_inv hinv

/-- Settles O58, by the branches of the checks. -/
theorem loadChecksAreOrderedAndExact : Obligations.LoadChecksAreOrderedAndExact := by
  refine fun s p => ⟨fun h => s.loadProgram_of_error ?_, fun h h' => s.loadProgram_of_error ?_, fun h h' => ?_⟩
  · rw [loadCheck_eq, if_pos h]
  · rw [loadCheck_eq, if_neg (Nat.not_lt.mpr h), if_pos h']
  · exact ⟨_, s.loadProgram_of_check ((loadCheck_eq_none p).mpr ⟨h, h'⟩)⟩

/-- Settles O59, by the run states and the actions. -/
theorem hostActsOnIdleCoresOnly : Obligations.HostActsOnIdleCoresOnly := by
  refine fun s => ⟨hostAct_of_running, hostAct_reset, fun h a ha => hostAct_of_ended h ha, fun hr => ⟨fun i v => ?_, hostAct_run hr,
    fun p hu hc => ?_, fun p e hu hc => ?_, fun p hu => ?_⟩⟩
  · exact ⟨_, hostAct_setReg hr i v, oneReg_writeReg s i v, rfl, fun _ => rfl, rfl, rfl, rfl, rfl, rfl⟩
  · exact ⟨_, s.loadProgram_of_check hc, (hostAct_load hr p).trans (hostLoad_of_check hu hc)⟩
  · exact (hostAct_load hr p).trans (hostLoad_of_error hu hc)
  · exact (hostAct_load hr p).trans (hostLoad_of_used hu p)

end Sys2Proof.Machine
end

section
/-!
The Symbol Table Builder and the Linker: when a table exists (41_symbol_table.md R125), where a link fails (42_linker.md R131), and
what a resolved record does (R132 to R135).
-/

namespace Sys2Proof.Machine

/-! ### The labels of a table (R125) -/

/-- The names of a Symbol Table, in the order of their insertion. -/
def tableNames (t : SymbolTable) : List Text := t.map Prod.fst

/-- The labels of a text section, in the order of the instructions. -/
def textLabels (ds : List Instruction) : List Text := ds.filterMap fun d => d.label

/-- The labels of a data section, in the order of the elements. -/
def dataLabels (ds : List StaticData) : List Text := ds.map fun d => d.label

section Names

variable {t u : SymbolTable} {n name : Text} {a : Word} {i off : Nat} {d : Instruction} {ds : List Instruction}

/-- `insert` appends a new name, and only a new one. -/
theorem insertSymbol_ok_iff : insertSymbol t n a = .ok u ↔ n ∉ tableNames t ∧ u = t ++ [(n, a)] := by
  rw [insertSymbol_eq_ok, lookupSymbol_eq_none, tableNames]

theorem tableNames_append (t : SymbolTable) (n : Text) (a : Word) : tableNames (t ++ [(n, a)]) = tableNames t ++ [n] := by
  simp [tableNames]

theorem nodup_insertSymbol (h : insertSymbol t n a = .ok u) (ht : (tableNames t).Nodup) :
    tableNames u = tableNames t ++ [n] ∧ (tableNames u).Nodup := by
  obtain ⟨hn, rfl⟩ := insertSymbol_ok_iff.mp h
  rw [tableNames_append]
  exact ⟨rfl, List.nodup_append.mpr ⟨ht, List.nodup_singleton n, fun x hx y hy => by
    rw [List.mem_singleton.mp hy]
    rintro rfl
    exact hn hx⟩⟩

/-- A name that keeps the names distinct can be inserted. -/
theorem insertSymbol_of_nodup {ns : List Text} (a : Word) (h : (tableNames t ++ n :: ns).Nodup) :
    insertSymbol t n a = .ok (t ++ [(n, a)]) :=
  insertSymbol_ok_iff.mpr ⟨fun hn => (List.nodup_append.mp h).2.2 n hn n List.mem_cons_self rfl, rfl⟩

theorem textLabels_cons_unlabelled (ds : List Instruction) (h : d.label = none) : textLabels (d :: ds) = textLabels ds :=
  List.filterMap_cons_none h

theorem textLabels_cons_labelled (ds : List Instruction) (h : d.label = some name) :
    textLabels (d :: ds) = name :: textLabels ds := List.filterMap_cons_some h

/-- The text labels of a table are inserted in order, and its names stay distinct. -/
theorem nodup_insertText (h : insertText t i ds = .ok u) (ht : (tableNames t).Nodup) :
    tableNames u = tableNames t ++ textLabels ds ∧ (tableNames u).Nodup := by
  induction ds generalizing t i with
  | nil => cases h; exact ⟨(List.append_nil _).symm, ht⟩
  | cons d ds ih =>
    cases hl : d.label with
    | none =>
      rw [textLabels_cons_unlabelled ds hl]
      exact ih (insertText_cons_unlabelled t i ds hl ▸ h) ht
    | some name =>
      obtain ⟨v, hv, hu⟩ := insertText_cons_labelled hl h
      obtain ⟨hnames, hnodup⟩ := nodup_insertSymbol hv ht
      obtain ⟨hu', hunodup⟩ := ih hu hnodup
      rw [textLabels_cons_labelled ds hl, hu', hnames, List.append_assoc]
      exact ⟨rfl, by rwa [hu', hnames, List.append_assoc] at hunodup⟩

/-- Text labels that keep the names distinct can be inserted. -/
theorem insertText_of_nodup (h : (tableNames t ++ textLabels ds).Nodup) : ∃ u, insertText t i ds = .ok u := by
  induction ds generalizing t i with
  | nil => exact ⟨t, rfl⟩
  | cons d ds ih =>
    cases hl : d.label with
    | none =>
      rw [textLabels_cons_unlabelled ds hl] at h
      rw [insertText_cons_unlabelled t i ds hl]
      exact ih h
    | some name =>
      rw [textLabels_cons_labelled ds hl] at h
      rw [insertText, hl]
      simp only [insertSymbol_of_nodup _ h]
      exact ih (by rwa [tableNames_append, List.append_assoc])

/-- The data labels of a table are inserted in order, and its names stay distinct. -/
theorem nodup_insertData {ds : List StaticData} (h : insertData t off ds = .ok u) (ht : (tableNames t).Nodup) :
    tableNames u = tableNames t ++ dataLabels ds ∧ (tableNames u).Nodup := by
  induction ds generalizing t off with
  | nil => cases h; exact ⟨(List.append_nil _).symm, ht⟩
  | cons d ds ih =>
    obtain ⟨v, hv, hu⟩ := insertData_cons h
    obtain ⟨hnames, hnodup⟩ := nodup_insertSymbol hv ht
    obtain ⟨hu', hunodup⟩ := ih hu hnodup
    exact ⟨by rw [hu', hnames, List.append_assoc]; rfl, hunodup⟩

/-- Data labels that keep the names distinct can be inserted. -/
theorem insertData_of_nodup {ds : List StaticData} (h : (tableNames t ++ dataLabels ds).Nodup) :
    ∃ u, insertData t off ds = .ok u := by
  induction ds generalizing t off with
  | nil => exact ⟨t, rfl⟩
  | cons d ds ih =>
    have h' : (tableNames t ++ d.label :: dataLabels ds).Nodup := h
    rw [insertData]
    simp only [insertSymbol_of_nodup _ h']
    exact ih (by rwa [tableNames_append, List.append_assoc])

/-- The labels of a Protogram whose table exists are distinct. -/
theorem nodup_of_buildTable {p : Protogram} (h : buildTable p = .ok u) : (textLabels p.instrs ++ dataLabels p.data).Nodup := by
  obtain ⟨v, htext, hdata⟩ := buildTable_ok h
  obtain ⟨hv, hvn⟩ := nodup_insertText htext List.nodup_nil
  obtain ⟨hu, hun⟩ := nodup_insertData hdata hvn
  rwa [hu, hv] at hun

theorem buildTable_of_nodup {p : Protogram} (h : (textLabels p.instrs ++ dataLabels p.data).Nodup) : ∃ u, buildTable p = .ok u := by
  obtain ⟨v, hv⟩ : ∃ v, insertText [] 0 p.instrs = .ok v := insertText_of_nodup (List.nodup_append.mp h).1
  rw [buildTable, hv]
  refine insertData_of_nodup ?_
  rw [(nodup_insertText hv List.nodup_nil).1]
  exact h

end Names

/-! ### The first undefined label (R131) -/

/-- The record asks the table for `name`, which it lacks. -/
def Undefined (t : SymbolTable) (d : Instruction) (name : Text) : Prop :=
  d.symbolicOperand = some name ∧ Variant.relocates d.variant = true ∧ lookupSymbol t name = none

section Errors

variable {cfg : Config} {t : SymbolTable} {i k : Nat} {d d' : Instruction} {ds ds' : List Instruction} {e : LinkError}
variable {p : Protogram} {name : Text}

theorem relocate_error_iff : relocate cfg t i d = .error e ↔ ∃ name, Undefined t d name ∧ e = .undefinedLabel name := by
  simp only [relocate_eq_error, Undefined, and_assoc]

/-- `d` at index `k` of the list is the first record with an undefined label. -/
def FirstUndefined (t : SymbolTable) (ds : List Instruction) (k : Nat) (d : Instruction) (name : Text) : Prop :=
  ds[k]? = some d ∧ Undefined t d name ∧ ∀ j d' name', j < k → ds[j]? = some d' → ¬ Undefined t d' name'

theorem firstUndefined_cons_succ {d₀ : Instruction} :
    FirstUndefined t (d₀ :: ds) (k + 1) d name ↔ (∀ name', ¬ Undefined t d₀ name') ∧ FirstUndefined t ds k d name := by
  constructor
  · rintro ⟨hd, hu, hfirst⟩
    exact ⟨fun name' => hfirst 0 d₀ name' (Nat.succ_pos k) rfl, hd, hu,
      fun j d' name' hj hd' => hfirst (j + 1) d' name' (Nat.succ_lt_succ hj) hd'⟩
  · rintro ⟨h0, hd, hu, hfirst⟩
    refine ⟨hd, hu, fun j d' name' hj hd' => ?_⟩
    cases j with
    | zero => cases hd'; exact h0 name'
    | succ j => exact hfirst j d' name' (Nat.lt_of_succ_lt_succ hj) hd'

/-- The error `e` names the first undefined label of the list. -/
def NamesFirstUndefined (t : SymbolTable) (ds : List Instruction) (e : LinkError) : Prop :=
  ∃ k d name, FirstUndefined t ds k d name ∧ e = .undefinedLabel name

/-- An undefined label of the first record is the first one. -/
theorem namesFirstUndefined_of_head {d₀ : Instruction} (hu : Undefined t d₀ name) :
    NamesFirstUndefined t (d₀ :: ds) e ↔ e = .undefinedLabel name := by
  constructor
  · rintro ⟨k, d, name', hfirst, rfl⟩
    cases k with
    | zero =>
      obtain ⟨hd, ⟨hs, -⟩, -⟩ := hfirst
      cases hd
      cases hu.1.symm.trans hs
      rfl
    | succ k => exact absurd hu ((firstUndefined_cons_succ.mp hfirst).1 name)
  · rintro rfl
    exact ⟨0, d₀, name, ⟨rfl, hu, nofun⟩, rfl⟩

/-- A first record without an undefined label is passed over. -/
theorem namesFirstUndefined_of_tail {d₀ : Instruction} (h0 : ∀ name, ¬ Undefined t d₀ name) :
    NamesFirstUndefined t (d₀ :: ds) e ↔ NamesFirstUndefined t ds e := by
  constructor
  · rintro ⟨k, d, name, hfirst, he⟩
    cases k with
    | zero =>
      obtain ⟨hd, hu, -⟩ := hfirst
      cases hd
      exact absurd hu (h0 name)
    | succ k => exact ⟨k, d, name, (firstUndefined_cons_succ.mp hfirst).2, he⟩
  · rintro ⟨k, d, name, hfirst, he⟩
    exact ⟨k + 1, d, name, firstUndefined_cons_succ.mpr ⟨h0, hfirst⟩, he⟩

/-- Relocating a list fails at its first undefined label, and only so. -/
theorem relocateFrom_error_iff : relocateFrom cfg t i ds = .error e ↔ NamesFirstUndefined t ds e := by
  induction ds generalizing i with
  | nil => simp [relocateFrom, NamesFirstUndefined, FirstUndefined]
  | cons d₀ ds ih =>
    rw [relocateFrom]
    cases hd : relocate cfg t i d₀ with
    | error e' =>
      obtain ⟨name, hu, rfl⟩ := relocate_error_iff.mp hd
      rw [namesFirstUndefined_of_head hu]
      simp [eq_comm]
    | ok d' =>
      have h0 : ∀ name, ¬ Undefined t d₀ name := fun name hu => by
        rw [relocate_error_iff.mpr ⟨name, hu, rfl⟩] at hd
        cases hd
      rw [namesFirstUndefined_of_tail h0, ← ih (i := i + 1)]
      cases relocateFrom cfg t (i + 1) ds <;> simp

theorem linkProtogram_error_iff : linkProtogram cfg p t = .error e ↔ relocateFrom cfg t 0 p.instrs = .error e := by
  unfold linkProtogram
  cases relocateFrom cfg t 0 p.instrs <;> simp

/-! ### The relocated list (R130, R135) -/

theorem length_relocateFrom (h : relocateFrom cfg t i ds = .ok ds') : ds'.length = ds.length := by
  induction ds generalizing i ds' with
  | nil => cases h; rfl
  | cons d ds ih =>
    obtain ⟨e, es, -, hes, rfl⟩ := relocateFrom_cons_ok h
    rw [List.length_cons, List.length_cons, ih hes]

theorem getElem?_relocateFrom (h : relocateFrom cfg t i ds = .ok ds') (hd : ds[k]? = some d) :
    ∃ d', ds'[k]? = some d' ∧ relocate cfg t (i + k) d = .ok d' := by
  induction ds generalizing i k ds' with
  | nil => simp at hd
  | cons d₀ ds ih =>
    obtain ⟨e, es, he, hes, rfl⟩ := relocateFrom_cons_ok h
    cases k with
    | zero => cases hd; exact ⟨e, rfl, he⟩
    | succ k =>
      obtain ⟨d', hd', h'⟩ := ih hes hd
      exact ⟨d', hd', by rwa [Nat.add_right_comm, Nat.add_assoc] at h'⟩

/-- A record the linker acts on, whose symbol is defined, is resolved and its value derived anew (R132 to R135). -/
theorem relocate_of_symbol {target : Word} (cfg : Config) (i : Nat) (hs : d.symbolicOperand = some name)
    (hr : Variant.relocates d.variant = true) (hl : lookupSymbol t name = some target) :
    relocate cfg t i d =
      .ok (Instruction.rederive { d with variant := resolveVariant cfg i d target, symbolicOperand := none }) := by
  simp only [relocate, hs, hr, hl, if_true]

theorem inRange_immediate {rs rt imm n : Nat} (h : (Variant.immediate rs rt imm).inRange = true) (hn : n < 2 ^ 16) :
    (Variant.immediate rs rt n).inRange = true := by
  simp only [Variant.inRange, Bool.and_eq_true, decide_eq_true_eq] at h ⊢
  exact ⟨h.1, hn⟩

/-- A resolved field is in range, and the tag is kept. -/
theorem fieldsOk_resolveVariant (cfg : Config) (i : Nat) (target : Word) (h : d.fieldsOk = true) :
    (resolveVariant cfg i d target).inRange = true ∧ (resolveVariant cfg i d target).agrees d.opcode = true := by
  rw [Instruction.fieldsOk, Bool.and_eq_true] at h
  obtain ⟨hr, ha⟩ := h
  unfold resolveVariant
  cases hv : d.variant with
  | register | halt => rw [hv] at hr ha; exact ⟨hr, ha⟩
  | jump =>
    rw [hv] at ha
    exact ⟨decide_eq_true (Nat.mod_lt _ (by decide)), ha⟩
  | immediate rs rt imm =>
    rw [hv] at hr ha
    by_cases hb : isBranch cfg d = true
    · simp only [hb, if_true]
      exact ⟨inRange_immediate hr (reduce_lt _ 16), ha⟩
    · simp only [hb]
      exact ⟨inRange_immediate hr (Nat.mod_lt _ (by decide)), ha⟩

theorem wellFormed_of_relocate (h : relocate cfg t i d = .ok d') (hd : d.wellFormed = true) : d'.wellFormed = true := by
  obtain ⟨rfl, -⟩ | ⟨target, -, rfl⟩ := relocate_ok h
  · exact hd
  · rw [Instruction.wellFormed, Bool.and_eq_true] at hd
    obtain ⟨hr, ha⟩ := fieldsOk_resolveVariant cfg i target hd.1
    simp [Instruction.wellFormed, Instruction.fieldsOk, Instruction.inSync, Instruction.rederive, encode, hr, ha]

theorem wellFormed_of_relocateFrom (h : relocateFrom cfg t i ds = .ok ds') (hds : ∀ d ∈ ds, d.wellFormed = true) :
    ∀ d ∈ ds', d.wellFormed = true := by
  induction ds generalizing i ds' with
  | nil => cases h; exact nofun
  | cons d ds ih =>
    obtain ⟨e, es, he, hes, rfl⟩ := relocateFrom_cons_ok h
    obtain ⟨hd, hds⟩ := List.forall_mem_cons.mp hds
    exact List.forall_mem_cons.mpr ⟨wellFormed_of_relocate he hd, ih hes hds⟩

end Errors

/-! ### The targets of resolved branches and jumps (R132, R134) -/

section Targets

variable {i : Nat} {target : Word}

/-- The reduced field of a literal is the bit vector of the literal. -/
theorem reduce_eq_toNat (v : Int) (n : Nat) : reduce v n = (BitVec.ofInt n v).toNat := by
  rw [reduce, BitVec.toNat_ofInt]
  push_cast
  rfl

theorem toInt_ofInt_of_fits {v : Int} (h1 : -32768 ≤ v) (h2 : v ≤ 32767) : (BitVec.ofInt 16 v).toInt = v := by
  rw [BitVec.toInt_ofInt]
  exact Int.bmod_eq_of_le (by norm_num; omega) (by norm_num; omega)

/-- A branch at index `i` with its offset to `target` has the target `target`. -/
theorem branchTarget_branchOffset {s : State} {imm : Imm16} (hpc : s.pc = BitVec.ofNat 32 (textBase + i))
    (himm : imm.toInt = branchOffset i target) : s.branchTarget imm = target := by
  have hsum : ((textBase + i : Nat) : Int) + 1 + branchOffset i target = (target.toNat : Int) := by
    unfold branchOffset
    push_cast
    ring
  have hone : (1 : Word) = BitVec.ofInt 32 1 := rfl
  rw [State.branchTarget, sext16_eq_ofInt, himm, hpc, ← BitVec.ofInt_natCast, hone, ← BitVec.ofInt_add, ← BitVec.ofInt_add, hsum,
    BitVec.ofInt_natCast, BitVec.ofNat_toNat, BitVec.setWidth_eq]

/-- A jump at index `i` with the low bits of a target in its own segment has the target `target`. -/
theorem jumpTarget_of_segment {s : State} (hpc : s.pc = BitVec.ofNat 32 (textBase + i))
    (hseg : target.toNat / 2 ^ 26 = (textBase + i) / 2 ^ 26 % 64) : s.jumpTarget (BitVec.ofNat 26 target.toNat) = target := by
  rw [State.jumpTarget_eq, hpc, BitVec.toNat_ofNat, BitVec.toNat_ofNat]
  apply BitVec.eq_of_toNat_eq
  have := target.isLt
  rw [BitVec.toNat_ofNat]
  omega

end Targets

/-- Settles O51: the builder inserts the text labels, then the data labels, each of them once. -/
theorem tableExistsUnlessLabelsRepeat : Obligations.TableExistsUnlessLabelsRepeat :=
  fun _ => ⟨fun ⟨_, h⟩ => nodup_of_buildTable h, buildTable_of_nodup⟩

/-- Settles O52, by induction on the instruction list: relocation goes on exactly past the records whose symbols are defined. -/
theorem linkFailsAtTheFirstUndefinedLabel : Obligations.LinkFailsAtTheFirstUndefinedLabel := by
  intro cfg p t e
  rw [linkProtogram_error_iff, relocateFrom_error_iff]
  constructor
  · rintro ⟨k, d, name, ⟨hd, ⟨hs, hr, hl⟩, hfirst⟩, he⟩
    exact ⟨k, d, name, hd, hs, hr, hl, he, fun j d' name' hj hd' hs' hr' hl' => hfirst j d' name' hj hd' ⟨hs', hr', hl'⟩⟩
  · rintro ⟨k, d, name, hd, hs, hr, hl, he, hfirst⟩
    exact ⟨k, d, name, ⟨hd, ⟨hs, hr, hl⟩, fun j d' name' hj hd' hu => hfirst j d' name' hj hd' hu.1 hu.2.1 hu.2.2⟩, he⟩

/-- Settles O53: the field holds the offset, and a taken branch adds it to the next address. -/
theorem linkedBranchLandsOnItsLabel : Obligations.LinkedBranchLandsOnItsLabel := by
  intro cfg tab i d rs rt f name target hv hb hs hl hlow hhigh
  have himm : (BitVec.ofInt 16 (branchOffset i target)).toInt = branchOffset i target := toInt_ofInt_of_fits hlow hhigh
  have hr : Variant.relocates d.variant = true := by rw [hv]; rfl
  have hres : resolveVariant cfg i d target = .immediate rs rt (BitVec.ofInt 16 (branchOffset i target)).toNat := by
    rw [← reduce_eq_toNat]
    simp only [resolveVariant, hv, hb, if_true]
  refine ⟨_, _, relocate_of_symbol cfg i hs hr hl, hres, himm, rfl, rfl, rfl, rfl, fun s a b hpc => ⟨fun h => ?_, fun h => ?_⟩⟩
  · exact ⟨_, if_pos h, branchTarget_branchOffset hpc himm⟩
  · exact ⟨_, if_neg h, branchTarget_branchOffset hpc himm⟩

/-- Settles O54: the field holds the low bits of the label, and the jump takes the high bits from its own address. -/
theorem linkedJumpReachesItsLabel : Obligations.LinkedJumpReachesItsLabel := by
  intro cfg tab i d f name target hv hs hl hseg
  have hr : Variant.relocates d.variant = true := by rw [hv]; rfl
  have hres : resolveVariant cfg i d target = .jump (BitVec.ofNat 26 target.toNat).toNat := by
    rw [BitVec.toNat_ofNat]
    simp only [resolveVariant, hv]
  exact ⟨_, _, relocate_of_symbol cfg i hs hr hl, hres, rfl, rfl, rfl, rfl, fun s hpc => ⟨_, rfl, jumpTarget_of_segment hpc hseg⟩⟩

/-- Settles O55, by induction on the instruction list for each property of the relocated one. -/
theorem linkedInstructionsAreResolvedAndInSync : Obligations.LinkedInstructionsAreResolvedAndInSync := by
  refine ⟨fun cfg p q t h => ?_, fun cfg t i d rs rt f name target hv hb hs hl => ?_⟩
  · obtain ⟨ds, hds, rfl⟩ := linkProtogram_eq_ok.mp h
    refine ⟨rfl, length_relocateFrom hds, fun i d hd => ?_, nothingToResolve_of_relocateFrom hds, wellFormed_of_relocateFrom hds,
      link_of_linkProtogram h⟩
    obtain ⟨d', hd', he⟩ := getElem?_relocateFrom hds hd
    rw [Nat.zero_add] at he
    exact ⟨d', hd', he⟩
  · have hr : Variant.relocates d.variant = true := by rw [hv]; rfl
    have hres : resolveVariant cfg i d target = .immediate rs rt (target.toNat % 65536) := by
      simp [resolveVariant, hv, hb]
    exact ⟨_, relocate_of_symbol cfg i hs hr hl, hres, rfl, rfl, rfl, rfl⟩

end Sys2Proof.Machine
end

section
/-!
The Statement Parser (40_assembler_syntax.md): commas and spaces separate alike (R91), every parsed record is well-formed (R94), and
the three-register statements (R95).
-/

namespace Sys2Proof.Machine

/-! ### Commas as spaces (R91) -/

/-- A comma counts as a space; every other character is itself. -/
def commaToSpace (c : Char) : Char := if c = ',' then ' ' else c

section Commas

variable {c : Char} {t : Text}

theorem isSeparator_commaToSpace (c : Char) : isSeparator (commaToSpace c) = isSeparator c := by
  by_cases h : c = ','
  · subst h
    decide
  · rw [commaToSpace, if_neg h]

theorem commaToSpace_of_not_separator (h : isSeparator c = false) : commaToSpace c = c := by
  refine if_neg ?_
  rintro rfl
  exact absurd h (by decide)

theorem commaToSpace_eq_colon : (commaToSpace c == ':') = (c == ':') := by
  by_cases h : c = ','
  · subst h
    decide
  · rw [commaToSpace, if_neg h]

/-- The tokens of a text, whatever the commas among its separators. -/
theorem tokensFrom_map (t current : Text) : tokensFrom (t.map commaToSpace) current = tokensFrom t current := by
  induction t generalizing current with
  | nil => rfl
  | cons c t ih =>
    rw [List.map_cons]
    cases hs : isSeparator c with
    | true => cases current <;> simp only [tokensFrom, isSeparator_commaToSpace, hs, if_true, ih]
    | false => simp only [tokensFrom, commaToSpace_of_not_separator hs, hs, Bool.false_eq_true, if_false, ih]

theorem splitColon_map (t : Text) :
    splitColon (t.map commaToSpace) = (splitColon t).map fun p => (p.1.map commaToSpace, p.2.map commaToSpace) := by
  induction t with
  | nil => rfl
  | cons c t ih =>
    rw [List.map_cons, splitColon, splitColon, commaToSpace_eq_colon, ih]
    split
    · rfl
    · rw [Option.map_map, Option.map_map]
      rfl

theorem dropWhile_isSeparator_map (t : Text) :
    (t.map commaToSpace).dropWhile isSeparator = (t.dropWhile isSeparator).map commaToSpace := by
  have hcomp : isSeparator ∘ commaToSpace = isSeparator := funext isSeparator_commaToSpace
  rw [List.dropWhile_map, hcomp]

theorem trimSeparators_map (t : Text) : trimSeparators (t.map commaToSpace) = (trimSeparators t).map commaToSpace := by
  simp only [trimSeparators, dropWhile_isSeparator_map, ← List.map_reverse]

/-- A label name holds no comma. -/
theorem map_eq_self_of_isLabelName (h : isLabelName t = true) : t.map commaToSpace = t := by
  simp only [isLabelName, Bool.and_eq_true, Bool.not_eq_true', List.any_eq_false] at h
  have hc : ∀ c ∈ t, commaToSpace c = id c := fun c hc => commaToSpace_of_not_separator (Bool.eq_false_iff.mpr (h.2 c hc))
  rw [List.map_congr_left hc, List.map_id]

theorem splitLabel_map {line body : Text} {label : Option Text} (h : splitLabel line = .ok (label, body)) :
    splitLabel (line.map commaToSpace) = .ok (label, body.map commaToSpace) := by
  unfold splitLabel at h ⊢
  rw [splitColon_map]
  cases hc : splitColon line with
  | none =>
    rw [hc] at h
    cases h
    rfl
  | some p =>
    obtain ⟨left, right⟩ := p
    simp only [hc] at h
    split at h
    · rename_i hl
      cases h
      simp only [Option.map_some, trimSeparators_map, map_eq_self_of_isLabelName hl, hl, if_true]
    · cases h

end Commas

/-! ### Records of operands in range (R94 to R102) -/

section Shapes

variable {cfg : Config} {all rest ts : List Text} {d : Instruction} {body line : Text}

theorem make_reg_wellFormed (cfg : Config) (op : RegOp) {rs rt rd sh : Nat} (hrs : rs < 32) (hrt : rt < 32) (hrd : rd < 32)
    (hsh : sh < 32) : (Instruction.make cfg (.reg op) (.register rs rt rd sh (cfg.func.code op).toNat)).wellFormed = true := by
  have hc : (cfg.func.code op).toNat < 64 := BitVec.isLt _
  exact make_wellFormed cfg _ _ (by simp [Variant.inRange, hrs, hrt, hrd, hsh, hc]) rfl

theorem make_imm_wellFormed (hv : cfg.valid = true) (op : ImmOp) {rs rt n : Nat} (hrs : rs < 32) (hrt : rt < 32) (hn : n < 2 ^ 16) :
    (Instruction.make cfg (.imm op) (.immediate rs rt n)).wellFormed = true := by
  obtain ⟨-, hav, -, -⟩ := cfg.valid_iff.mp hv
  obtain ⟨h0, h2, h3, h63⟩ := OpcTable.code_ne_fixed hav op
  have hc : (cfg.opc.code op).toNat < 64 := BitVec.isLt _
  refine make_wellFormed cfg _ _ ?_ ?_
  · simp only [Variant.inRange, hrs, hrt, hn, decide_true, Bool.and_self]
  · simp [Variant.agrees, Mnemonic.opcode, hc, h0, h2, h3, h63]

theorem make_jump_wellFormed (cfg : Config) (op : JumpOp) {n : Nat} (hn : n < 2 ^ 26) :
    (Instruction.make cfg (.jump op) (.jump n)).wellFormed = true :=
  make_wellFormed cfg _ _ (decide_eq_true hn) (by cases op <;> rfl)

/-- A final operand gives a field in range: a reduced literal, or 0 for a name. -/
theorem withFinal_wellFormed {m : Mnemonic} {v : Nat → Variant} {width : Nat}
    (h : ∀ n, n < 2 ^ width → (Instruction.make cfg m (v n)).wellFormed = true) (f : Int ⊕ Text) :
    (withFinal cfg m v width f).wellFormed = true := by
  cases f with
  | inl n => exact h _ (reduce_lt n width)
  | inr name => exact h 0 (Nat.two_pow_pos width)

/-! ### The operand shapes -/

theorem parseThreeRegisters_wellFormed {op : RegOp} (h : parseThreeRegisters cfg op all rest = .ok d) : d.wellFormed = true := by
  unfold parseThreeRegisters at h
  split at h
  · obtain ⟨rd, hrd, h⟩ := ok_of_bind_eq_ok h
    obtain ⟨rs, hrs, h⟩ := ok_of_bind_eq_ok h
    obtain ⟨rt, hrt, h⟩ := ok_of_bind_eq_ok h
    cases h
    exact make_reg_wellFormed cfg op (registerOperand_lt hrs) (registerOperand_lt hrt) (registerOperand_lt hrd) (by decide)
  · cases h

theorem parseShift_wellFormed {op : RegOp} (h : parseShift cfg op all rest = .ok d) : d.wellFormed = true := by
  unfold parseShift at h
  split at h
  · obtain ⟨rd, hrd, h⟩ := ok_of_bind_eq_ok h
    obtain ⟨rs, hrs, h⟩ := ok_of_bind_eq_ok h
    obtain ⟨n, -, h⟩ := ok_of_bind_eq_ok h
    cases h
    exact make_reg_wellFormed cfg op (registerOperand_lt hrs) (by decide) (registerOperand_lt hrd) (reduce_lt n 5)
  · cases h

theorem parseRegisterJump_wellFormed {op : RegOp} (h : parseRegisterJump cfg op all rest = .ok d) : d.wellFormed = true := by
  unfold parseRegisterJump at h
  split at h
  · obtain ⟨rs, hrs, h⟩ := ok_of_bind_eq_ok h
    cases h
    exact make_reg_wellFormed cfg op (registerOperand_lt hrs) (by decide) (by decide) (by decide)
  · cases h

theorem parseMemory_wellFormed (hv : cfg.valid = true) {op : ImmOp} (h : parseMemory cfg op all rest = .ok d) :
    d.wellFormed = true := by
  unfold parseMemory at h
  split at h
  · obtain ⟨rt, hrt, h⟩ := ok_of_bind_eq_ok h
    split at h
    · cases h
    · split at h
      · cases h
      · obtain ⟨rs, hrs, h⟩ := ok_of_bind_eq_ok h
        cases h
        exact make_imm_wellFormed hv op (registerOperand_lt hrs) (registerOperand_lt hrt) (reduce_lt _ 16)
  · cases h

theorem parseImmediate_wellFormed (hv : cfg.valid = true) {op : ImmOp} (h : parseImmediate cfg op all rest = .ok d) :
    d.wellFormed = true := by
  unfold parseImmediate at h
  split at h
  · obtain ⟨rt, hrt, h⟩ := ok_of_bind_eq_ok h
    obtain ⟨rs, hrs, h⟩ := ok_of_bind_eq_ok h
    obtain ⟨f, -, h⟩ := ok_of_bind_eq_ok h
    cases h
    exact withFinal_wellFormed (fun n hn => make_imm_wellFormed hv op (registerOperand_lt hrs) (registerOperand_lt hrt) hn) f
  · cases h

theorem parseLui_wellFormed (hv : cfg.valid = true) (h : parseLui cfg all rest = .ok d) : d.wellFormed = true := by
  unfold parseLui at h
  split at h
  · obtain ⟨rt, hrt, h⟩ := ok_of_bind_eq_ok h
    obtain ⟨f, -, h⟩ := ok_of_bind_eq_ok h
    cases h
    exact withFinal_wellFormed (fun n hn => make_imm_wellFormed hv .lui (by decide) (registerOperand_lt hrt) hn) f
  · exact parseImmediate_wellFormed hv h

theorem parseJump_wellFormed {op : JumpOp} (h : parseJump cfg op all rest = .ok d) : d.wellFormed = true := by
  unfold parseJump at h
  split at h
  · obtain ⟨f, -, h⟩ := ok_of_bind_eq_ok h
    cases h
    exact withFinal_wellFormed (fun n hn => make_jump_wellFormed cfg op hn) f
  · cases h

theorem parseHalt_wellFormed (h : parseHalt cfg all rest = .ok d) : d.wellFormed = true := by
  unfold parseHalt at h
  split at h
  · cases h
    exact make_wellFormed cfg _ _ rfl rfl
  · cases h

/-- Every shape gives a well-formed record. -/
theorem parseOperands_wellFormed (hv : cfg.valid = true) {m : Mnemonic} (h : parseOperands cfg all rest m = .ok d) :
    d.wellFormed = true := by
  cases m with
  | reg op =>
    cases op with
    | sll | srl => exact parseShift_wellFormed h
    | jr => exact parseRegisterJump_wellFormed h
    | add | addu | sub | subu | and | or | nor | slt | sltu => exact parseThreeRegisters_wellFormed h
  | imm op =>
    cases op with
    | lui => exact parseLui_wellFormed hv h
    | lw | sw | lbu | lhu | sb | sh | ll | sc => exact parseMemory_wellFormed hv h
    | beq | bne | addi | addiu | slti | sltiu | andi | ori => exact parseImmediate_wellFormed hv h
  | jump op => exact parseJump_wellFormed h
  | halt => exact parseHalt_wellFormed h

theorem parseTokens_wellFormed (hv : cfg.valid = true) (h : parseTokens cfg ts = .ok d) : d.wellFormed = true := by
  unfold parseTokens at h
  split at h
  · cases h
  · split at h
    · cases h
    · exact parseOperands_wellFormed hv h

/-! ### The lines of source (R90, R92, R93) -/

/-- The instructions parsed so far are well-formed. -/
def ParserState.WellFormed (p : ParserState) : Prop := ∀ d ∈ p.instrs, d.wellFormed = true

/-- A text statement adds a parsed record with its label, or nothing. -/
theorem parseText_wellFormed (hv : cfg.valid = true) {p q : ParserState} (hp : p.WellFormed) (h : parseText cfg p line = .ok q) :
    q.WellFormed := by
  have added : ∀ {d : Instruction} (label : Option Text), d.wellFormed = true →
      ∀ e ∈ { d with label := label } :: p.instrs, e.wellFormed = true :=
    fun label hd => List.forall_mem_cons.mpr ⟨hd, hp⟩
  unfold parseText at h
  obtain ⟨⟨label, body⟩, -, h⟩ := ok_of_bind_eq_ok h
  dsimp only at h
  split at h
  · cases h
  · cases h
    exact hp
  · obtain ⟨d, hd, h⟩ := ok_of_bind_eq_ok h
    cases h
    exact added _ (parseTokens_wellFormed hv hd)
  · obtain ⟨d, hd, h⟩ := ok_of_bind_eq_ok h
    cases h
    exact added _ (parseTokens_wellFormed hv hd)

theorem parseLine_wellFormed (hv : cfg.valid = true) {p q : ParserState} (hp : p.WellFormed) (h : parseLine cfg p line = .ok q) :
    q.WellFormed := by
  unfold parseLine at h
  dsimp only at h
  split at h
  · cases h; exact hp
  split at h
  · cases h; exact hp
  split at h
  · cases h; exact hp
  split at h
  · cases h
  · exact parseText_wellFormed hv hp h
  · cases hd : parseData (trim line) with
    | error e => rw [hd] at h; cases h
    | ok d => rw [hd] at h; cases h; exact hp

theorem parseLines_wellFormed (hv : cfg.valid = true) {ls : List Text} {p q : ParserState} (hp : p.WellFormed)
    (h : parseLines cfg p ls = .ok q) : q.WellFormed := by
  induction ls generalizing p with
  | nil => cases h; exact hp
  | cons l ls ih =>
    rw [parseLines] at h
    cases hl : parseLine cfg p l with
    | error e => simp [hl] at h
    | ok r => exact ih (parseLine_wellFormed hv hp hl) (by simpa [hl] using h)

/-- A Protogram lists the instructions of the last parser state. -/
theorem parse_ok {ls : List Text} {p : Protogram} (h : parse cfg ls = .ok p) :
    ∃ q, parseLines cfg ParserState.start ls = .ok q ∧ p.instrs = q.instrs.reverse := by
  unfold parse at h
  split at h
  · cases h
  · rename_i q hq
    split at h
    · cases h
    · cases h
      exact ⟨q, hq, rfl⟩

/-! ### Three-register statements (R95) -/

theorem registerOperand_regName (h : cfg.namesDistinct = true) (i : RegIdx) :
    registerOperand cfg (regName cfg i) = .ok i.toNat := by
  rw [registerOperand, (regIndex_eq_some h).mpr rfl]

theorem parseOperands_threeRegisters {op : RegOp} (hsll : op ≠ .sll) (hsrl : op ≠ .srl) (hjr : op ≠ .jr) :
    parseOperands cfg all rest (.reg op) = parseThreeRegisters cfg op all rest := by
  cases op with
  | sll => exact absurd rfl hsll
  | srl => exact absurd rfl hsrl
  | jr => exact absurd rfl hjr
  | add | addu | sub | subu | and | or | nor | slt | sltu => rfl

theorem parseThreeRegisters_regNames (h : cfg.namesDistinct = true) (op : RegOp) (rs rt rd : RegIdx) :
    parseThreeRegisters cfg op all [regName cfg rd, regName cfg rs, regName cfg rt] =
      .ok ((Instr.ofRegister rs rt rd 0 op).toInstruction cfg) := by
  rw [toInstruction_ofRegister]
  simp only [parseThreeRegisters, registerOperand_regName h]
  rfl

end Shapes

/-- Settles O47: the tokens and the place of the colon do not depend on the commas, and a label holds none. -/
theorem commasAndSpacesParseAlike : Obligations.CommasAndSpacesParseAlike :=
  ⟨fun cfg body => congrArg (parseTokens cfg) (tokensFrom_map body []), fun _ _ _ h => splitLabel_map h⟩

/-- Settles O48: every line keeps the parsed instructions well-formed. -/
theorem parsedInstructionsAreWellFormed : Obligations.ParsedInstructionsAreWellFormed := by
  intro cfg ls p hv h d hd
  obtain ⟨q, hq, hp⟩ := parse_ok h
  rw [hp, List.mem_reverse] at hd
  exact parseLines_wellFormed hv (fun _ hmem => absurd hmem List.not_mem_nil) hq d hd

/-- Settles O49: the mnemonic and the three names look back, and the record's word decodes to the instruction. -/
theorem threeRegisterStatementsMeanTheirInstruction : Obligations.ThreeRegisterStatementsMeanTheirInstruction := by
  intro cfg op rs rt rd hv hsll hsrl hjr
  obtain ⟨-, -, -, hnames⟩ := cfg.valid_iff.mp hv
  have hm : mnemonicOf op.spelling = some (.reg op) := mnemonicOf_eq_some.mpr rfl
  refine ⟨_, ?_, rfl, decodeWord_encodeInstr hv _⟩
  simp only [parseTokens, hm, parseOperands_threeRegisters hsll hsrl hjr, parseThreeRegisters_regNames hnames]

end Sys2Proof.Machine
end
